-- ==== Sys2Proof/Word.lean ====
section
/-! DEFINITION. The value widths of the crc16 core (00_scope.md R9): every value is an unsigned bit vector
of a stated width, bit 0 the least significant. -/

namespace Sys2Proof

/-- `u8`: a data byte, a table index, a byte of `obyte`. -/
abbrev Byte := BitVec 8

/-- `u16`: a polynomial, a table entry, a crc, a `VAL`. -/
abbrev U16 := BitVec 16

/-- `u32`: a command word or a response word. -/
abbrev Word := BitVec 32

end Sys2Proof
end

