-- ==== Sys2Proof/Syntax.lean ====
section
/-! DEFINITION. The operations of the crc16 core (30_encoding.md R72, R74, R75: one constructor per row of
opcode_table.json), and the lines of the assembler syntax with its pseudo-operations (R83, R84). -/

namespace Sys2Proof

/-- A digest context number `c` (R72: 0..3; assembly `d0` to `d3`). -/
abbrev Ctx := Fin 4

/-- A user slot `k` (R72: 0..1; assembly `u0`, `u1`); it is table number `2 + k`. -/
abbrev Slot := Fin 2

/-- A table number `t` (R14, R72): two bits; 0 `ansi`, 1 `ccitt`, 2 `u0`, 3 `u1`. It stays a bit vector because
`TREF` holds it, `VAL` carries it and an entry address is made of it. -/
abbrev TabNo := BitVec 2

/-- Table number 0, the cached table of 0x8005. -/
abbrev TabNo.ansi : TabNo := 0#2

/-- Table number 1, the cached table of 0x1021. -/
abbrev TabNo.ccitt : TabNo := 1#2

/-- The ten operations (R74), each with the operands R72 gives it. -/
inductive Instr where
  /-- BUILD, R105. -/
  | build (k : Slot) (p : U16)
  /-- MKTAB, R106. -/
  | mktab (k : Slot) (p : U16)
  /-- TREAD, R107. -/
  | tread (t : TabNo) (i : Byte)
  /-- NEW, R141. -/
  | new (c : Ctx) (t : TabNo)
  /-- RESET, R142. -/
  | reset (c : Ctx)
  /-- WRITE, R143. -/
  | write (c : Ctx) (b : Byte)
  /-- SUM16, R144. -/
  | sum16 (c : Ctx)
  /-- SUM, R145. -/
  | sum (c : Ctx)
  /-- BLKSZ, R146. -/
  | blksz (c : Ctx)
  /-- SIZE, R147. -/
  | size (c : Ctx)
  deriving DecidableEq, Repr

/-- The `Op` of R75: what a command word is. -/
inductive Verdict where
  /-- The word is one of the ten operations. -/
  | legal (i : Instr)
  /-- The word matches no row of R74 (R80). -/
  | illegal
  deriving DecidableEq, Repr

/-- One line of the assembler syntax (R83) or one pseudo-operation (R84), its operands plain numbers: here an
operand can be out of its range, which is an assembly error (R83; WellFormed.lean). A `<tab>` operand is
already its table number 0 to 3 (`ansi`, `ccitt`, `u0`, `u1`). -/
inductive AsmLine where
  | build (k p : Nat)
  | mktab (k p : Nat)
  | tread (t i : Nat)
  | new (c t : Nat)
  | reset (c : Nat)
  | write (c b : Nat)
  | sum16 (c : Nat)
  | sum (c : Nat)
  | blksz (c : Nat)
  | size (c : Nat)
  /-- `.word w`: any 32-bit word. -/
  | word (w : Nat)
  /-- `WRITES d<c>, <bytes>`, R171. -/
  | writes (c : Nat) (bytes : List Nat)
  /-- `NEW_ANSI d<c>`, R175. -/
  | newAnsi (c : Nat)
  /-- `NEW_CCITT d<c>`, R175. -/
  | newCcitt (c : Nat)
  /-- `CHECKSUM d<c>, <tab>, <bytes>`, R172. -/
  | checksum (c t : Nat) (bytes : List Nat)
  /-- `CHECKSUM_ANSI d<c>, <bytes>`, R173. -/
  | checksumAnsi (c : Nat) (bytes : List Nat)
  /-- `CHECKSUM_CCITT d<c>, <bytes>`, R174. -/
  | checksumCcitt (c : Nat) (bytes : List Nat)
  /-- `MAKE_TABLE u<k>, <p>`, R176. -/
  | makeTable (k p : Nat)
  deriving DecidableEq, Repr

end Sys2Proof
end

