-- ==== Sys2Proof/WellFormed.lean ====
section
/-! DEFINITION. Operand ranges (30_encoding.md R72, R83): "An operand out of its range is an assembly error".
A term of `Instr` has its ranges in its types (log 9), so every one is well-formed; what can be ill-formed is
a line of assembly, whose operands are plain numbers. -/

namespace Sys2Proof.AsmLine

/-- `d<c>`, `c` = 0..3. -/
def ctxOk (c : Nat) : Bool := decide (c < 4)

/-- `u<k>`, `k` = 0 | 1. -/
def slotOk (k : Nat) : Bool := decide (k < 2)

/-- `<tab>`, table numbers 0, 1, 2, 3. -/
def tabOk (t : Nat) : Bool := decide (t < 4)

/-- A data byte or a table index, 0..0xFF. -/
def byteOk (b : Nat) : Bool := decide (b < 256)

/-- A polynomial, 0..0xFFFF, every value legal (R72, R102). -/
def polyOk (p : Nat) : Bool := decide (p < 65536)

/-- The operand of `.word`: any 32-bit word. -/
def wordOk (w : Nat) : Bool := decide (w < 4294967296)

/-- Every operand of the line is in its range (R83, R84). -/
def wf : AsmLine → Bool
  | .build k p => slotOk k && polyOk p
  | .mktab k p => slotOk k && polyOk p
  | .tread t i => tabOk t && byteOk i
  | .new c t => ctxOk c && tabOk t
  | .reset c => ctxOk c
  | .write c b => ctxOk c && byteOk b
  | .sum16 c => ctxOk c
  | .sum c => ctxOk c
  | .blksz c => ctxOk c
  | .size c => ctxOk c
  | .word w => wordOk w
  | .writes c bs => ctxOk c && bs.all byteOk
  | .newAnsi c => ctxOk c
  | .newCcitt c => ctxOk c
  | .checksum c t bs => ctxOk c && tabOk t && bs.all byteOk
  | .checksumAnsi c bs => ctxOk c && bs.all byteOk
  | .checksumCcitt c bs => ctxOk c && bs.all byteOk
  | .makeTable k p => slotOk k && polyOk p

end Sys2Proof.AsmLine
end

