-- ==== Sys2Proof/Decode.lean ====
section
/-! DEFINITION. The command word (30_encoding.md R71), the opcode map (R74), the decoder (R75), the classes of
ILLEGAL words (R80) and the encoder. Decoding reads no state. -/

namespace Sys2Proof

/-! ## The fields of a command word (R71, R72) -/

/-- `OP` = word[31:28]. -/
def opField (w : Word) : BitVec 4 := w.extractLsb' 28 4

/-- `CTX` = word[27:26]. -/
def ctxField (w : Word) : BitVec 2 := w.extractLsb' 26 2

/-- `TSEL` = word[25:24]. -/
def tselField (w : Word) : BitVec 2 := w.extractLsb' 24 2

/-- `RSV` = word[23:16]. -/
def rsvField (w : Word) : BitVec 8 := w.extractLsb' 16 8

/-- `ARG` = word[15:0]. -/
def argField (w : Word) : U16 := w.extractLsb' 0 16

/-- The context operand `c` (R72). -/
def ctxOperand (w : Word) : Ctx := (ctxField w).toFin

/-- The table number operand `t` (R72). -/
def tabOperand (w : Word) : TabNo := tselField w

/-- The destination slot operand `k` = word[24] (R72). -/
def slotOperand (w : Word) : Slot := (w.extractLsb' 24 1).toFin

/-- The polynomial operand `p` (R72). -/
def polyOperand (w : Word) : U16 := argField w

/-- The data byte operand `b` and the table index operand `i` = word[7:0] (R72). -/
def byteOperand (w : Word) : Byte := w.extractLsb' 0 8

/-! ## The opcode map (R74) -/

/-- The ten mnemonics. -/
inductive Mnemonic where
  | build | mktab | tread | new | reset | write | sum16 | sum | blksz | size
  deriving DecidableEq, Repr

/-- A row of R74: a word `w` is the row's operation exactly when `w & mask = pattern`. -/
structure Row where
  mnemonic : Mnemonic
  /-- The column "match". -/
  pattern : Word
  mask : Word
  deriving DecidableEq, Repr

/-- The table of R74. -/
def opcodeRows : List Row := [
  ⟨.build, 0x12000000#32, 0xFEFF0000#32⟩,
  ⟨.mktab, 0x22000000#32, 0xFEFF0000#32⟩,
  ⟨.tread, 0x30000000#32, 0xFCFFFF00#32⟩,
  ⟨.new,   0x40000000#32, 0xF0FFFFFF#32⟩,
  ⟨.reset, 0x50000000#32, 0xF3FFFFFF#32⟩,
  ⟨.write, 0x60000000#32, 0xF3FFFF00#32⟩,
  ⟨.sum16, 0x70000000#32, 0xF3FFFFFF#32⟩,
  ⟨.sum,   0x80000000#32, 0xF3FFFFFF#32⟩,
  ⟨.blksz, 0x90000000#32, 0xF3FFFFFF#32⟩,
  ⟨.size,  0xA0000000#32, 0xF3FFFFFF#32⟩]

/-- `(w & row.mask) == row.match`. -/
def Row.matches (r : Row) (w : Word) : Bool := w &&& r.mask == r.pattern

/-- The operation a word is once its row is known: its operands taken from the word (R72). -/
def operation : Mnemonic → Word → Instr
  | .build, w => .build (slotOperand w) (polyOperand w)
  | .mktab, w => .mktab (slotOperand w) (polyOperand w)
  | .tread, w => .tread (tabOperand w) (byteOperand w)
  | .new, w => .new (ctxOperand w) (tabOperand w)
  | .reset, w => .reset (ctxOperand w)
  | .write, w => .write (ctxOperand w) (byteOperand w)
  | .sum16, w => .sum16 (ctxOperand w)
  | .sum, w => .sum (ctxOperand w)
  | .blksz, w => .blksz (ctxOperand w)
  | .size, w => .size (ctxOperand w)

/-- The decoder of R75: total on every word; a word that matches no row is rejected by the one name ILLEGAL. -/
def decode (w : Word) : Verdict :=
  match opcodeRows.find? (fun r => r.matches w) with
  | some r => .legal (operation r.mnemonic w)
  | none => .illegal

/-! ## The classes of ILLEGAL words (R80)

R80's own second description of the same set of words, field by field; the decoder above does not use it. -/

/-- The classes I1 to I8 of R80. -/
inductive IllegalClass where
  | i1 | i2 | i3 | i4 | i5 | i6 | i7 | i8
  deriving DecidableEq, Repr

/-- All eight classes. -/
def IllegalClass.all : List IllegalClass := [.i1, .i2, .i3, .i4, .i5, .i6, .i7, .i8]

/-- The column "condition" of R80. -/
def IllegalClass.condition : IllegalClass → Word → Bool
  | .i1, w => opField w == 0x0#4 || decide (0xB#4 ≤ opField w)
  | .i2, w => rsvField w != 0x00#8
  | .i3, w => (opField w == 0x1#4 || opField w == 0x2#4) && ctxField w != 0#2
  | .i4, w => (opField w == 0x1#4 || opField w == 0x2#4) && !(tselField w).getLsbD 1
  | .i5, w => opField w == 0x3#4 && ctxField w != 0#2
  | .i6, w => (opField w == 0x3#4 || opField w == 0x6#4) && (argField w).extractLsb' 8 8 != 0#8
  | .i7, w => (opField w == 0x4#4 || opField w == 0x5#4 || opField w == 0x7#4 || opField w == 0x8#4
      || opField w == 0x9#4 || opField w == 0xA#4) && argField w != 0#16
  | .i8, w => (opField w == 0x5#4 || opField w == 0x6#4 || opField w == 0x7#4 || opField w == 0x8#4
      || opField w == 0x9#4 || opField w == 0xA#4) && tselField w != 0#2

/-! ## The encoder (R71, R74) -/

/-- Format `C` of R71: `OP`, `CTX`, `TSEL`, `RSV` = 0x00, `ARG`, most significant first. -/
def commandWord (op : BitVec 4) (ctx tsel : BitVec 2) (arg : U16) : Word :=
  op ++ ctx ++ tsel ++ 0x00#8 ++ arg

/-- The bits of a context number. -/
def ctxBits (c : Ctx) : BitVec 2 := BitVec.ofFin c

/-- The `TSEL` field of a destination slot: `TSEL[1]` = 1, `TSEL[0]` = `k` (R72). -/
def slotBits (k : Slot) : BitVec 2 := 1#1 ++ (BitVec.ofFin k : BitVec 1)

/-- A byte operand in `ARG`: `ARG[15:8]` = 0, `ARG[7:0]` the byte (R72). -/
def byteArg (b : Byte) : U16 := 0x00#8 ++ b

/-- The word of an operation (R74, column "pattern"). -/
def encode : Instr → Word
  | .build k p => commandWord 0x1#4 0#2 (slotBits k) p
  | .mktab k p => commandWord 0x2#4 0#2 (slotBits k) p
  | .tread t i => commandWord 0x3#4 0#2 t (byteArg i)
  | .new c t => commandWord 0x4#4 (ctxBits c) t 0#16
  | .reset c => commandWord 0x5#4 (ctxBits c) 0#2 0#16
  | .write c b => commandWord 0x6#4 (ctxBits c) 0#2 (byteArg b)
  | .sum16 c => commandWord 0x7#4 (ctxBits c) 0#2 0#16
  | .sum c => commandWord 0x8#4 (ctxBits c) 0#2 0#16
  | .blksz c => commandWord 0x9#4 (ctxBits c) 0#2 0#16
  | .size c => commandWord 0xA#4 (ctxBits c) 0#2 0#16

/-! ## The opcode table's numbering -/

/-- The instruction of a word numbered as opcode_table.json numbers it: the command is one 32-bit word, bit 0
the least significant (R9, R71), and the table gives every row its 32 bits. Bits of `w` at or above `nbits`
are none of the instruction's; a number that does not fit in 32 bits is no command word. -/
def decodeTableWord (nbits w : Nat) : Option Instr :=
  let v := w % 2 ^ nbits
  if v < 4294967296 then
    match decode (BitVec.ofNat 32 v) with
    | .legal i => some i
    | .illegal => none
  else none

end Sys2Proof
end

