-- ==== Sys2Proof/Machine/Flags.lean ====
section
/-! DEFINITION. The block has no flag and no condition code (10_state.md R25): "the status of an operation
exists only in its own response". This file is that status (60_exceptions.md R190) and the response word that
carries it (30_encoding.md R76). -/

namespace Sys2Proof.Machine

/-- The status codes that are ever produced (R190); 4 to 15 are reserved and never produced (R81). -/
inductive Status where
  /-- 0: the operation was carried out. -/
  | ok
  /-- 1: the word is no operation. -/
  | illegal
  /-- 2: the table number given is a user slot that has not been built since reset. -/
  | notable
  /-- 3: the destination slot is held by a context and a build is required. -/
  | inuse
  deriving DecidableEq, Repr

/-- The column "code" of R190. -/
def Status.code : Status → BitVec 4
  | .ok => 0#4
  | .illegal => 1#4
  | .notable => 2#4
  | .inuse => 3#4

/-- Format `R` of R76: `STATUS`[31:28], zero[27:16], `VAL`[15:0]. -/
def responseWord (st : Status) (val : U16) : Word := st.code ++ 0x000#12 ++ val

/-- The `STATUS` field of a response (R76). -/
def statusField (r : Word) : BitVec 4 := r.extractLsb' 28 4

/-- The `VAL` field of a response (R76). -/
def valField (r : Word) : U16 := r.extractLsb' 0 16

end Sys2Proof.Machine
end

