-- ==== Sys2Proof/Config.lean ====
section
/-! DEFINITION. What is fixed for this hardware: its name (00_scope.md R2), the parameters of R7 that a rule
uses as a value, and the one value the spec leaves open (93_implementation_defined.md U1).
The counts of R8 (four contexts, two user slots, four tables) are the index types of Syntax.lean. -/

namespace Sys2Proof.Config

/-- The name of the hardware modelled (R2); it is not readable from the hardware. -/
def identity : String := "crc16core-d1"

/-- `ANSI_POLY` (R7, R103), used exactly as written: no rule reverses its bits (90_conflicts.md C2). -/
def ansiPoly : U16 := 0x8005#16

/-- `CCITT_POLY` (R7, R103), used exactly as written. -/
def ccittPoly : U16 := 0x1021#16

/-- `NBIT` (R7): shift steps per table entry. -/
def nbit : Nat := 8

/-- `BLOCK_SIZE` (R7): what BLKSZ answers (R146). -/
def blockSize : U16 := 1#16

/-- `CHECKSUM_SIZE_BYTES` (R7): what SIZE answers (R147). -/
def checksumSizeBytes : U16 := 2#16

/-- FREE VALUE (U1, log 4): what the store of an entry of a user slot holds between a reset of the block and
the first build of that slot. First argument: how many resets there have been; second: the entry address.
Nothing is known of it. -/
opaque unspecifiedEntry : Nat → Nat → U16

end Sys2Proof.Config
end

