-- ==== Sys2Proof/Machine/Crc.lean ====
section
/-! DEFINITION. The normative arithmetic: the pure functions of R13 (40_table_builder.md R100, R101, R104;
41_digest_engine.md R130, R131, R137; 42_oneshot_and_convenience.md R170). They depend on no state. -/

namespace Sys2Proof.Machine

/-- A table as a value (R13): a function from a byte value to an entry. State holds no such function. -/
abbrev Table := Byte → U16

/-- One iteration of R100: shift right by one, and exclusive-or with `p` when the low bit, read before the
shift, is 1. -/
def shiftXor (p x : U16) : U16 :=
  if x.getLsbD 0 then (x >>> 1) ^^^ p else x >>> 1

/-- `Entry(p, i)` (R100): eight iterations from `zext_16(i)`. -/
def entry (p : U16) (i : Byte) : U16 := Nat.iterate (shiftXor p) Config.nbit (i.setWidth 16)

/-- `BuildTable(p)` (R101). -/
def buildTable (p : U16) : Table := fun i => entry p i

/-- The cached ANSI table (R103). -/
def cachedAnsi : Table := buildTable Config.ansiPoly

/-- The cached CCITT table (R103). -/
def cachedCcitt : Table := buildTable Config.ccittPoly

/-- `TableFor(p)` (R104): the match is exact equality of all 16 bits. -/
def tableFor (p : U16) : Table :=
  if p = Config.ansiPoly then cachedAnsi
  else if p = Config.ccittPoly then cachedCcitt
  else buildTable p

/-- `low_byte(v)` (R9). -/
def lowByte (v : U16) : Byte := v.extractLsb' 0 8

/-- `high_byte(v)` (R9). -/
def highByte (v : U16) : Byte := v.extractLsb' 8 8

/-- `Step(x, T, b)` (R130): fold one byte into the working value. -/
def foldByte (T : Table) (x : U16) (b : Byte) : U16 := T (lowByte x ^^^ b) ^^^ (x >>> 8)

/-- `Update(crc, T, data)` (R131): complement, fold the bytes first byte first, complement. The complements
are part of the function (R136). -/
def update (crc : U16) (T : Table) (data : List Byte) : U16 := ~~~(data.foldl (foldByte T) (~~~crc))

/-- `SumBytes(prefix, v)` (R137): the prefix, then the two bytes of `v`, high byte first. -/
def sumBytes (pre : List Byte) (v : U16) : List Byte := pre ++ [highByte v, lowByte v]

/-- `Checksum(data, T)` (R170). -/
def checksum (data : List Byte) (T : Table) : U16 := update 0x0000#16 T data

end Sys2Proof.Machine
end

