-- ==== Sys2Proof/Machine/Operands.lean ====
section
/-! DEFINITION. Operand forms: what a slot, a table number and an index name (30_encoding.md R72, 20_memory.md
R50). The fields of the command word they are taken from are in Decode.lean. -/

namespace Sys2Proof.Machine

/-- The table number `t = 2 + k` of user slot `k` (R14, R72). -/
def slotTab (k : Slot) : TabNo := 1#1 ++ (BitVec.ofFin k : BitVec 1)

/-- The user slot `k = t - 2` that table number `t` names, if `t >= 2` (R14). -/
def userSlot (t : TabNo) : Option Slot :=
  if t.getLsbD 1 then some (t.extractLsb' 0 1).toFin else none

/-- The entry address `a[9:0] = {t[1:0], i[7:0]}` (R50). -/
def entryAddr (t : TabNo) (i : Byte) : BitVec 10 := t ++ i

/-- The table number in an entry address (R50). -/
def addrTab (a : BitVec 10) : TabNo := a.extractLsb' 8 2

/-- The byte value in an entry address (R50). -/
def addrIndex (a : BitVec 10) : Byte := a.extractLsb' 0 8

/-- The 256 byte values, in rising order: the range of the loop of R101 and R105. -/
def byteValues : List Byte := (List.range 256).map (BitVec.ofNat 8)

end Sys2Proof.Machine
end

