-- ==== Sys2Proof/Machine/State.lean ====
section
/-! DEFINITION. The state, as plain data. `Block` is the whole architectural state of the crc16 core
(10_state.md R20). `Port` is the three channels of 30_encoding.md R70 as far as the host has used them; R30
says that they are no state of the block, and the model keeps them beside it because a step of the model is a
function of one state (log 1). -/

namespace Sys2Proof.Machine

/-- The table space (20_memory.md R50): pairs of an entry address `{t, i}` and its 16-bit entry. The unit is
the whole entry, the only width there is (R52, R53; log 5). What an address that is not listed holds, and the
canonical form, are in Memory.lean. -/
abbrev Memory := List (Nat × U16)

/-- The architectural state (R20): 4 x 16, 4 x 2, 4 x 256 x 16 and 2 x 1 bits, and nothing else. -/
structure Block where
  /-- `CRC[c]` (R21): the running crc of context `c`, in the uncomplemented form. -/
  crc : Vector U16 4
  /-- `TREF[c]` (R22): the number of the table context `c` was last given. -/
  tref : Vector TabNo 4
  /-- `TAB[t][i]` (R27). -/
  tab : Memory
  /-- `UV[k]` (R28): user slot `k` has been built since reset. -/
  uv : Vector Bool 2
  deriving DecidableEq, Repr

/-- What the host can put to the block. -/
inductive Input where
  /-- A command word on `cmd` (R70). -/
  | word (w : Word)
  /-- The external reset of the whole block, from its application to its end (R210; log 3). -/
  | blockReset
  deriving DecidableEq, Repr

/-- The channels of R70 (log 1). -/
structure Port where
  /-- What the host has presented and the block has not taken, first presented first (R60). -/
  cmd : List Input
  /-- `rsp`: the response words given, oldest first (R60, R76). -/
  rsp : List Word
  /-- `obyte`: the bytes emitted, oldest first (R70). -/
  obyte : List Byte
  deriving DecidableEq, Repr

/-- The state of the model. -/
structure State where
  block : Block
  port : Port
  /-- The MODEL's own field (log 4): how many resets of the block there have been since the run began. It is
  only the argument of the free value `Config.unspecifiedEntry`. -/
  resets : Nat
  deriving DecidableEq, Repr

/-- There is no fault: "The block raises no exception in the sense of a transfer of control" (60_exceptions.md
R192), and no operation hangs, traps or is undefined (R223, 93_implementation_defined.md U4). Nobody raises
one; the type is empty. -/
inductive Fault where
  deriving DecidableEq, Repr

/-- Why the model has no step. The statuses ILLEGAL, NOTABLE and INUSE are not among these: they are
responses, and the machine goes on (R190, R195; log 7). -/
inductive Refusal where
  /-- An instruction that has no meaning yet. Raised by no arm of `exec`: every instruction has its meaning.
  Safe. -/
  | notModelled (mnemonic : String)
  /-- The host has presented nothing, so there is no command to execute and the model has no step (log 2).
  Raised by `step` on an empty `port.cmd` and by nothing else. Safe: nothing is claimed of that moment. -/
  | noCommand
  deriving DecidableEq, Repr

/-- The state of the block when reset ends (R31, R210): every crc 0, every table reference 0, no user slot
built, and the table space at its reset contents, so that nothing is listed. -/
def Block.reset : Block where
  crc := #v[0x0000#16, 0x0000#16, 0x0000#16, 0x0000#16]
  tref := #v[0#2, 0#2, 0#2, 0#2]
  tab := []
  uv := #v[false, false]

/-- The machine right after reset: the block of R31, and a host that has presented nothing and been answered
nothing (log 1, log 4). -/
def State.reset : State where
  block := Block.reset
  port := { cmd := [], rsp := [], obyte := [] }
  resets := 0

end Sys2Proof.Machine
end

