-- ==== Sys2Proof/Machine/Memory.lean ====
section
/-! DEFINITION. The table space as a list in one canonical form (20_memory.md R50; log 5): reading, writing,
and the form. -/

namespace Sys2Proof.Machine

/-- What an entry address that is not listed holds: the reset contents of the table space (10_state.md R31).
Tables 0 and 1 hold the cached tables; the user slots hold no value the spec gives (U1). -/
def unlisted (a : Nat) : Option U16 :=
  if a < 0x100 then some (cachedAnsi (BitVec.ofNat 8 a))
  else if a < 0x200 then some (cachedCcitt (BitVec.ofNat 8 a))
  else none

namespace Memory

/-- The entry listed at an address. -/
def listed : Memory → Nat → Option U16
  | [], _ => none
  | (b, v) :: m, a => if a = b then some v else listed m a

/-- The entry at an address: the one listed, else the reset contents; `none` where neither gives one. -/
def read (m : Memory) (a : BitVec 10) : Option U16 :=
  match listed m a.toNat with
  | some v => some v
  | none => unlisted a.toNat

/-- List `v` at address `a`, in place of what was listed there. -/
def insert : Memory → Nat → U16 → Memory
  | [], a, v => [(a, v)]
  | (b, u) :: m, a, v =>
    if a < b then (a, v) :: (b, u) :: m
    else if a = b then (a, v) :: m
    else (b, u) :: insert m a v

/-- List nothing at address `a`. -/
def erase : Memory → Nat → Memory
  | [], _ => []
  | (b, u) :: m, a => if a = b then m else (b, u) :: erase m a

/-- `TabWrite`, the `MemWrite` of one entry (00_scope.md R12). Writing what an unlisted address holds lists nothing, so that
equal table spaces are equal lists. -/
def write (m : Memory) (a : BitVec 10) (v : U16) : Memory :=
  if unlisted a.toNat = some v then erase m a.toNat else insert m a.toNat v

/-- The pairs that list the entries of table `t` when its value is `T`, in rising order. -/
def segment (t : TabNo) (T : Table) : Memory :=
  byteValues.filterMap fun i =>
    if unlisted (entryAddr t i).toNat = some (T i) then none else some ((entryAddr t i).toNat, T i)

/-- All 256 entries of table `t` written to `T` in one operation (R54, R105): what is listed below the table,
the table, what is listed above it. `Laws.Memory.fill_eq_writes` says that this is the loop of R105, one
`write` for each byte value. -/
def fill (m : Memory) (t : TabNo) (T : Table) : Memory :=
  m.filter (fun c => decide (c.1 < 256 * t.toNat)) ++ segment t T
    ++ m.filter (fun c => decide (256 * t.toNat + 256 ≤ c.1))

/-- The addresses rise strictly, from above `lo` where one is given. -/
def rising : Option Nat → Memory → Bool
  | _, [] => true
  | none, (a, _) :: m => rising (some a) m
  | some lo, (a, _) :: m => decide (lo < a) && rising (some a) m

/-- A listed pair is an entry address of R50 and differs from what the address holds unlisted. -/
def cellOk (c : Nat × U16) : Bool := decide (c.1 < 0x400) && (unlisted c.1 != some c.2)

/-- The canonical form: addresses strictly rising, inside the table space, and no entry equal to what its
address holds when it is not listed. -/
def wf (m : Memory) : Bool := rising none m && m.all cellOk

end Memory

end Sys2Proof.Machine
end

