-- ==== Sys2Proof/Machine/Ops.lean ====
section
/-! DEFINITION. The named operations the meanings are made of: the state accesses of 00_scope.md R12, the two
checks of 60_exceptions.md R190, the response (R76) and the refusal, the build shared by BUILD and MKTAB
(R105), the taking of an input, and the reset of the block (70_reset_and_hazards.md R210).

TAKING AN EXCEPTION has no operation: the block has no exception, interrupt or trap, and no return from one
(R192 to R196). What stands in its place is `refuse`. -/

namespace Sys2Proof.Machine

/-! ## Registers: one home each (R20, R23) -/

/-- `CRC[c]`. -/
def readCrc (s : State) (c : Ctx) : U16 := s.block.crc[c]

/-- `CRC[c] <- v`. -/
def writeCrc (s : State) (c : Ctx) (v : U16) : State :=
  { s with block := { s.block with crc := s.block.crc.set c v } }

/-- `TREF[c]`. -/
def readTref (s : State) (c : Ctx) : TabNo := s.block.tref[c]

/-- `TREF[c] <- t`. -/
def writeTref (s : State) (c : Ctx) (t : TabNo) : State :=
  { s with block := { s.block with tref := s.block.tref.set c t } }

/-- `UV[k]`. -/
def readUv (s : State) (k : Slot) : Bool := s.block.uv[k]

/-- `UV[k] <- 1`; no operation clears a `UV` bit (R28). -/
def setUv (s : State) (k : Slot) : State :=
  { s with block := { s.block with uv := s.block.uv.set k true } }

/-! ## The table space -/

/-- `TabRead(t, i)` (R12). Where the store holds no value the spec gives (a user slot before its first build,
U1), the read gives the free value; in every state R29 allows no operation makes such a read (log 4, log 6). -/
def tabRead (s : State) (t : TabNo) (i : Byte) : U16 :=
  match s.block.tab.read (entryAddr t i) with
  | some v => v
  | none => Config.unspecifiedEntry s.resets (entryAddr t i).toNat

/-- `TAB[t]` as a value (R12). -/
def tableAt (s : State) (t : TabNo) : Table := fun i => tabRead s t i

/-- `TAB[t] <- T`: the 256 `TabWrite`s of R105 as one atomic operation (R54). Their order cannot be observed
(R101, U9; log 8). -/
def writeTable (s : State) (t : TabNo) (T : Table) : State :=
  { s with block := { s.block with tab := s.block.tab.fill t T } }

/-! ## The two checks on table numbers (R190) -/

/-- The cause of NOTABLE: `t >= 2` and `UV[t - 2] = 0`. -/
def notBuilt (s : State) (t : TabNo) : Bool :=
  match userSlot t with
  | some k => !readUv s k
  | none => false

/-- The cause of INUSE: some context holds table number `2 + k`. All four `TREF` are read (R105). -/
def inUse (s : State) (k : Slot) : Bool :=
  readTref s 0 == slotTab k || readTref s 1 == slotTab k || readTref s 2 == slotTab k || readTref s 3 == slotTab k

/-! ## Responses (R76) -/

/-- `respond(S, V, B)`: one response word on `rsp`, and the bytes of `B` on `obyte` in order (R76). -/
def respond (st : Status) (val : U16) (bytes : List Byte) (s : State) : State :=
  { s with port := { s.port with rsp := s.port.rsp ++ [responseWord st val], obyte := s.port.obyte ++ bytes } }

/-- `refuse(S)` = `respond(S, 0x0000, [])` with no state written (R12, R190). -/
def refuse (st : Status) (s : State) : State := respond st 0x0000#16 [] s

/-! ## The build (R105) -/

/-- The operation of R105, which R106 uses whole, "including its INUSE check and its response". -/
def buildInto (k : Slot) (p : U16) (s : State) : State :=
  if inUse s k then refuse .inuse s
  else respond .ok ((slotTab k).setWidth 16) [] (setUv (writeTable s (slotTab k) (buildTable p)) k)

/-! ## Inputs -/

/-- Take the input the host presented first (R60). -/
def takeInput (s : State) : Option (Input × State) :=
  match s.port.cmd with
  | [] => none
  | e :: rest => some (e, { s with port := { s.port with cmd := rest } })

/-- Present a command word before everything that waits. -/
def presentNext (w : Word) (s : State) : State :=
  { s with port := { s.port with cmd := .word w :: s.port.cmd } }

/-- The reset of the whole block (R210): every piece of the block's state at its reset value, whatever it held
before. It gives no response (R211), and withdraws none (log 3). -/
def resetBlock (s : State) : State :=
  { s with block := Block.reset, resets := s.resets + 1 }

end Sys2Proof.Machine
end

