-- ==== Sys2Proof/Machine/DigestEngine.lean ====
section
/-! DEFINITION. The meanings of the Digest Engine's operations (41_digest_engine.md R141 to R147). -/

namespace Sys2Proof.Machine

/-- NEW(c, t), R141. -/
def execNew (c : Ctx) (t : TabNo) (s : State) : Host.Outcome State Fault Refusal :=
  if notBuilt s t then .next (refuse .notable s)
  else .next (respond .ok 0x0000#16 [] (writeTref (writeCrc s c 0x0000#16) c t))

/-- RESET(c), R142: the table reference stays. -/
def execReset (c : Ctx) (s : State) : Host.Outcome State Fault Refusal :=
  .next (respond .ok 0x0000#16 [] (writeCrc s c 0x0000#16))

/-- WRITE(c, b), R143: `CRC[c] <- Update(CRC[c], TAB[TREF[c]], [b])`; `VAL` is the one byte consumed. -/
def execWrite (c : Ctx) (b : Byte) (s : State) : Host.Outcome State Fault Refusal :=
  .next (respond .ok 0x0001#16 [] (writeCrc s c (update (readCrc s c) (tableAt s (readTref s c)) [b])))

/-- SUM16(c), R144. -/
def execSum16 (c : Ctx) (s : State) : Host.Outcome State Fault Refusal :=
  .next (respond .ok (readCrc s c) [] s)

/-- SUM(c), R145: the two bytes of `SumBytes([], CRC[c])`, high byte first. -/
def execSum (c : Ctx) (s : State) : Host.Outcome State Fault Refusal :=
  .next (respond .ok 0x0000#16 (sumBytes [] (readCrc s c)) s)

/-- BLKSZ(c), R146: the answer depends on no state and not on `c`. -/
def execBlksz (_c : Ctx) (s : State) : Host.Outcome State Fault Refusal :=
  .next (respond .ok Config.blockSize [] s)

/-- SIZE(c), R147: the answer depends on no state and not on `c`. -/
def execSize (_c : Ctx) (s : State) : Host.Outcome State Fault Refusal :=
  .next (respond .ok Config.checksumSizeBytes [] s)

end Sys2Proof.Machine
end

