-- ==== Sys2Proof/Machine/TableBuilder.lean ====
section
/-! DEFINITION. The meanings of the Table Builder's operations (40_table_builder.md R105 to R107). -/

namespace Sys2Proof.Machine

/-- BUILD(k, p), R105: no look at the named polynomials. -/
def execBuild (k : Slot) (p : U16) (s : State) : Host.Outcome State Fault Refusal :=
  .next (buildInto k p s)

/-- MKTAB(k, p), R106: a named polynomial gives the number of its cached table and touches nothing. -/
def execMktab (k : Slot) (p : U16) (s : State) : Host.Outcome State Fault Refusal :=
  if p = Config.ansiPoly then .next (respond .ok 0x0000#16 [] s)
  else if p = Config.ccittPoly then .next (respond .ok 0x0001#16 [] s)
  else .next (buildInto k p s)

/-- TREAD(t, i), R107. -/
def execTread (t : TabNo) (i : Byte) (s : State) : Host.Outcome State Fault Refusal :=
  if notBuilt s t then .next (refuse .notable s)
  else .next (respond .ok (tabRead s t i) [] s)

end Sys2Proof.Machine
end

