-- ==== Sys2Proof/Machine/Dispatch.lean ====
section
/-! DEFINITION. The meaning of each operation, one arm per row of 30_encoding.md R74. -/

namespace Sys2Proof.Machine

/-- Execute one decoded operation. -/
def exec (i : Instr) (s : State) : Host.Outcome State Fault Refusal :=
  match i with
  | .build k p => Sys2Proof.Machine.execBuild k p s
  | .mktab k p => Sys2Proof.Machine.execMktab k p s
  | .tread t j => Sys2Proof.Machine.execTread t j s
  | .new c t => Sys2Proof.Machine.execNew c t s
  | .reset c => Sys2Proof.Machine.execReset c s
  | .write c b => Sys2Proof.Machine.execWrite c b s
  | .sum16 c => Sys2Proof.Machine.execSum16 c s
  | .sum c => Sys2Proof.Machine.execSum c s
  | .blksz c => Sys2Proof.Machine.execBlksz c s
  | .size c => Sys2Proof.Machine.execSize c s

end Sys2Proof.Machine
end

