-- ==== Sys2Proof/Machine/Step.lean ====
section
/-! DEFINITION. One step: the block takes what the host presented first and carries it out whole (20_memory.md
R60, 30_encoding.md R70, 60_exceptions.md R191). -/

namespace Sys2Proof.Machine

/-- One execution of the block on a command word (R70): decode first, reading no state (R75, R191 step 1); an
ILLEGAL word is answered and changes nothing (R80); any other word is its operation. Total on every word. -/
def execWord (w : Word) (s : State) : Host.Outcome State Fault Refusal :=
  match decode w with
  | .legal i => exec i s
  | .illegal => .next (refuse .illegal s)

/-- One step of the model: a command word, or a reset of the block (log 3); with nothing presented there is no
step (log 2). -/
def step (s : State) : Host.Outcome State Fault Refusal :=
  match takeInput s with
  | none => .refused .noCommand
  | some (.word w, s') => execWord w s'
  | some (.blockReset, s') => .next (resetBlock s')

/-- `s` with the instruction `w` presented as the next command word (log 11). The bits of `w` at or above
`nbits` are none of the instruction's, and a command word has 32 bits. -/
def State.withFetchWord (s : State) (nbits w : Nat) : State :=
  presentNext (BitVec.ofNat 32 (w % 2 ^ nbits)) s

end Sys2Proof.Machine
end

