-- ==== Sys2Proof/Machine/Assembler.lean ====
section
/-! DEFINITION. The assembler of 30_encoding.md R83 and the pseudo-operations of R84
(42_oneshot_and_convenience.md R171 to R176): what command words a line stands for, and how a line is read from
its text. Nothing of the block is here: it is the spec's notation for what a host presents. -/

namespace Sys2Proof.Machine.Assembler

/-! ## The words of a line -/

/-- A context operand. -/
def ctx (c : Nat) : Ctx := Fin.ofNat 4 c

/-- A destination slot operand. -/
def slot (k : Nat) : Slot := Fin.ofNat 2 k

/-- `WRITES` (R171): one `WRITE` per byte, in order; nothing for the empty sequence. -/
def writesWords (c : Nat) (bytes : List Nat) : List Word :=
  bytes.map fun b => encode (.write (ctx c) (BitVec.ofNat 8 b))

/-- `CHECKSUM` (R172): `NEW` ; `WRITES` ; `SUM16`. -/
def checksumWords (c t : Nat) (bytes : List Nat) : List Word :=
  encode (.new (ctx c) (BitVec.ofNat 2 t)) :: (writesWords c bytes ++ [encode (.sum16 (ctx c))])

/-- The command words of a line whose operands are in range (R83, R84). -/
def words : AsmLine → List Word
  | .build k p => [encode (.build (slot k) (BitVec.ofNat 16 p))]
  | .mktab k p => [encode (.mktab (slot k) (BitVec.ofNat 16 p))]
  | .tread t i => [encode (.tread (BitVec.ofNat 2 t) (BitVec.ofNat 8 i))]
  | .new c t => [encode (.new (ctx c) (BitVec.ofNat 2 t))]
  | .reset c => [encode (.reset (ctx c))]
  | .write c b => [encode (.write (ctx c) (BitVec.ofNat 8 b))]
  | .sum16 c => [encode (.sum16 (ctx c))]
  | .sum c => [encode (.sum (ctx c))]
  | .blksz c => [encode (.blksz (ctx c))]
  | .size c => [encode (.size (ctx c))]
  | .word w => [BitVec.ofNat 32 w]
  | .writes c bytes => writesWords c bytes
  | .newAnsi c => [encode (.new (ctx c) TabNo.ansi)]
  | .newCcitt c => [encode (.new (ctx c) TabNo.ccitt)]
  | .checksum c t bytes => checksumWords c t bytes
  | .checksumAnsi c bytes => checksumWords c 0 bytes
  | .checksumCcitt c bytes => checksumWords c 1 bytes
  | .makeTable k p => [encode (.mktab (slot k) (BitVec.ofNat 16 p))]

/-- Assemble one line; `none` is an assembly error (R83: an operand out of its range). -/
def assemble (l : AsmLine) : Option (List Word) := if l.wf then some (words l) else none

/-- Assemble lines one after another; one error refuses the whole (DESIGN CHOICE, log 12). -/
def assembleAll : List AsmLine → Option (List Word)
  | [] => some []
  | l :: ls =>
    match assemble l, assembleAll ls with
    | some ws, some rest => some (ws ++ rest)
    | _, _ => none

/-! ## The text of a line (log 12) -/

/-- The pieces a line is made of. -/
inductive Token where
  /-- A mnemonic, a name or a number: letters, digits, `_` and `.`. -/
  | name (cs : List Char)
  /-- A double-quoted string, as its character codes (00_scope.md R11). -/
  | str (bytes : List Nat)
  | comma
  | openBracket
  | closeBracket
  deriving DecidableEq, Repr

/-- Where the reader of a line stands. -/
inductive Lex where
  | between
  /-- Inside a name; its characters so far, last first. -/
  | inName (cs : List Char)
  /-- Inside a string; its codes so far, last first. -/
  | inString (bytes : List Nat)
  deriving DecidableEq, Repr

/-- The digits 0 to 9. -/
def isDigit (c : Char) : Bool := decide (0x30 ≤ c.toNat) && decide (c.toNat ≤ 0x39)

/-- The characters a name is made of. -/
def isNameChar (c : Char) : Bool :=
  isDigit c || (decide (0x41 ≤ c.toNat) && decide (c.toNat ≤ 0x5A))
    || (decide (0x61 ≤ c.toNat) && decide (c.toNat ≤ 0x7A)) || c.toNat == 0x5F || c.toNat == 0x2E

/-- The characters a string may hold: the printable ASCII codes (R11; 91_not_in_source.md N4). -/
def isStringChar (c : Char) : Bool := decide (0x20 ≤ c.toNat) && decide (c.toNat ≤ 0x7E)

/-- End the name being read, if one is. -/
def close (st : Lex) (acc : List Token) : List Token :=
  match st with
  | .inName cs => .name cs.reverse :: acc
  | _ => acc

/-- Cut a line into its tokens; `;` starts a comment (R83). The tokens found so far are last first. DESIGN CHOICE
(log 12): tokens need no space between them unless both are names, a `;` inside a string is a character of it, no
escape exists in a string, and a tab or a carriage return outside a comment is an error. -/
def lex : List Char → Lex → List Token → Option (List Token)
  | [], .inString _, _ => none
  | [], st, acc => some (close st acc).reverse
  | c :: cs, .inString bytes, acc =>
    if c.toNat = 0x22 then lex cs .between (.str bytes.reverse :: acc)
    else if isStringChar c then lex cs (.inString (c.toNat :: bytes)) acc
    else none
  | c :: cs, .inName n, acc =>
    if isNameChar c then lex cs (.inName (c :: n)) acc
    else if c.toNat = 0x3B then some (Token.name n.reverse :: acc).reverse
    else if c.toNat = 0x20 then lex cs .between (.name n.reverse :: acc)
    else if c.toNat = 0x2C then lex cs .between (.comma :: .name n.reverse :: acc)
    else if c.toNat = 0x5B then lex cs .between (.openBracket :: .name n.reverse :: acc)
    else if c.toNat = 0x5D then lex cs .between (.closeBracket :: .name n.reverse :: acc)
    else if c.toNat = 0x22 then lex cs (.inString []) (.name n.reverse :: acc)
    else none
  | c :: cs, .between, acc =>
    if isNameChar c then lex cs (.inName [c]) acc
    else if c.toNat = 0x3B then some acc.reverse
    else if c.toNat = 0x20 then lex cs .between acc
    else if c.toNat = 0x2C then lex cs .between (.comma :: acc)
    else if c.toNat = 0x5B then lex cs .between (.openBracket :: acc)
    else if c.toNat = 0x5D then lex cs .between (.closeBracket :: acc)
    else if c.toNat = 0x22 then lex cs (.inString []) acc
    else none

/-- The value of a hexadecimal digit. -/
def hexDigit (c : Char) : Option Nat :=
  if isDigit c then some (c.toNat - 0x30)
  else if 0x41 ≤ c.toNat ∧ c.toNat ≤ 0x46 then some (c.toNat - 0x41 + 10)
  else if 0x61 ≤ c.toNat ∧ c.toNat ≤ 0x66 then some (c.toNat - 0x61 + 10)
  else none

/-- Read digits in base 16, most significant first, from the value so far. -/
def hexValue : Nat → List Char → Option Nat
  | v, [] => some v
  | v, c :: cs =>
    match hexDigit c with
    | some d => hexValue (16 * v + d) cs
    | none => none

/-- Read decimal digits. -/
def decValue : Nat → List Char → Option Nat
  | v, [] => some v
  | v, c :: cs => if isDigit c then decValue (10 * v + (c.toNat - 0x30)) cs else none

/-- A number: `0x` hexadecimal or decimal (R83). DESIGN CHOICE (log 12): leading zeros are allowed, hexadecimal
digits are of either case, and `0x` with no digit is an error. -/
def number : List Char → Option Nat
  | [] => none
  | ['0', 'x'] => none
  | '0' :: 'x' :: cs => hexValue 0 cs
  | cs => decValue 0 cs

/-- `d<c>`. The spec writes `d0` to `d3` (R14, R83) and does not say how the number in a name may be spelled.
DESIGN CHOICE (log 12): it is decimal, and leading zeros are allowed, so that `d01` is `d1`; `d0x1` is an error. -/
def ctxName : Token → Option Nat
  | .name ('d' :: c :: cs) => decValue 0 (c :: cs)
  | _ => none

/-- `u<k>`. The spec writes `u0` and `u1` (R14, R83). DESIGN CHOICE (log 12): as for `d<c>`, the number is decimal
and leading zeros are allowed, so that `u00` is `u0`; `u0x1` is an error. -/
def slotName : Token → Option Nat
  | .name ('u' :: c :: cs) => decValue 0 (c :: cs)
  | _ => none

/-- `<tab>`: `ansi`, `ccitt`, `u0`, `u1` are table numbers 0, 1, 2, 3 (R83). A slot name is spelled as
`slotName` has it, leading zeros included: DESIGN CHOICE (log 12). -/
def tabName : Token → Option Nat
  | .name ['a', 'n', 's', 'i'] => some 0
  | .name ['c', 'c', 'i', 't', 't'] => some 1
  | t =>
    match slotName t with
    | some k => some (2 + k)
    | none => none

/-- A number token. -/
def numTok : Token → Option Nat
  | .name cs => number cs
  | _ => none

/-- The rest of a list of numbers after its first: `, b ... ]`. -/
def listTail : List Token → Option (List Nat)
  | [.closeBracket] => some []
  | .comma :: t :: ts =>
    match numTok t, listTail ts with
    | some b, some bs => some (b :: bs)
    | _, _ => none
  | _ => none

/-- `<bytes>`: a double-quoted string or a list `[b, b, ...]` (R84). -/
def bytesToks : List Token → Option (List Nat)
  | [.str bs] => some bs
  | [.openBracket, .closeBracket] => some []
  | .openBracket :: t :: ts =>
    match numTok t, listTail ts with
    | some b, some bs => some (b :: bs)
    | _, _ => none
  | _ => none

/-- The words a line can begin with (R83, R84). -/
inductive Keyword where
  | build | mktab | tread | new | reset | write | sum16 | sum | blksz | size | word
  | writes | newAnsi | newCcitt | checksum | checksumAnsi | checksumCcitt | makeTable
  deriving DecidableEq, Repr

/-- How they are spelled: in capitals (R83), `.word` as R83 writes it. -/
def keywords : List (List Char × Keyword) := [
  ("BUILD".toList, .build), ("MKTAB".toList, .mktab), ("TREAD".toList, .tread), ("NEW".toList, .new),
  ("RESET".toList, .reset), ("WRITE".toList, .write), ("SUM16".toList, .sum16), ("SUM".toList, .sum),
  ("BLKSZ".toList, .blksz), ("SIZE".toList, .size), (".word".toList, .word), ("WRITES".toList, .writes),
  ("NEW_ANSI".toList, .newAnsi), ("NEW_CCITT".toList, .newCcitt), ("CHECKSUM".toList, .checksum),
  ("CHECKSUM_ANSI".toList, .checksumAnsi), ("CHECKSUM_CCITT".toList, .checksumCcitt),
  ("MAKE_TABLE".toList, .makeTable)]

/-- The keyword a name is. -/
def keyword (cs : List Char) : Option Keyword :=
  match keywords.find? (fun e => e.1 == cs) with
  | some e => some e.2
  | none => none

/-- Two operands read, or none. -/
def both (f : Nat → Nat → AsmLine) : Option Nat → Option Nat → Option AsmLine
  | some a, some b => some (f a b)
  | _, _ => none

/-- A context and a byte sequence read, or none. -/
def withBytes (f : Nat → List Nat → AsmLine) : Option Nat → Option (List Nat) → Option AsmLine
  | some c, some bs => some (f c bs)
  | _, _ => none

/-- The operands of a keyword (R83, R84). -/
def operandsOf : Keyword → List Token → Option AsmLine
  | .build, [a, .comma, b] => both .build (slotName a) (numTok b)
  | .mktab, [a, .comma, b] => both .mktab (slotName a) (numTok b)
  | .tread, [a, .comma, b] => both .tread (tabName a) (numTok b)
  | .new, [a, .comma, b] => both .new (ctxName a) (tabName b)
  | .reset, [a] => (ctxName a).map .reset
  | .write, [a, .comma, b] => both .write (ctxName a) (numTok b)
  | .sum16, [a] => (ctxName a).map .sum16
  | .sum, [a] => (ctxName a).map .sum
  | .blksz, [a] => (ctxName a).map .blksz
  | .size, [a] => (ctxName a).map .size
  | .word, [a] => (numTok a).map .word
  | .writes, a :: .comma :: bs => withBytes .writes (ctxName a) (bytesToks bs)
  | .newAnsi, [a] => (ctxName a).map .newAnsi
  | .newCcitt, [a] => (ctxName a).map .newCcitt
  | .checksum, a :: .comma :: t :: .comma :: bs =>
    match tabName t with
    | some t => withBytes (fun c bs => .checksum c t bs) (ctxName a) (bytesToks bs)
    | none => none
  | .checksumAnsi, a :: .comma :: bs => withBytes .checksumAnsi (ctxName a) (bytesToks bs)
  | .checksumCcitt, a :: .comma :: bs => withBytes .checksumCcitt (ctxName a) (bytesToks bs)
  | .makeTable, [a, .comma, b] => both .makeTable (slotName a) (numTok b)
  | _, _ => none

/-- Read the text of one line (R83). `some []` is a line with no command on it. DESIGN CHOICE (log 12): R83 gives
no such line; the model accepts one that is blank, or holds only spaces or a comment, and it stands for no words. -/
def readLine (text : List Char) : Option (List AsmLine) :=
  match lex text .between [] with
  | some [] => some []
  | some (.name n :: ts) =>
    match keyword n with
    | some k => (operandsOf k ts).map fun l => [l]
    | none => none
  | _ => none

/-- Cut a text at its line feeds (DESIGN CHOICE, log 12). The line being read is last character first. -/
def splitLines : List Char → List Char → List (List Char)
  | cur, [] => [cur.reverse]
  | cur, c :: cs => if c.toNat = 0x0A then cur.reverse :: splitLines [] cs else splitLines (c :: cur) cs

/-- Read every line; one error refuses the whole (DESIGN CHOICE, log 12). -/
def readLines : List (List Char) → Option (List AsmLine)
  | [] => some []
  | l :: ls =>
    match readLine l, readLines ls with
    | some a, some rest => some (a ++ rest)
    | _, _ => none

/-- The command words of a text, one line after another (R83). -/
def assembleText (text : List Char) : Option (List Word) :=
  match readLines (splitLines [] text) with
  | some ls => assembleAll ls
  | none => none

end Sys2Proof.Machine.Assembler
end

