-- ==== Sys2Proof/Safety.lean ====
section
/-! DEFINITION. The terms claims are stated in: what a good state is (10_state.md R28, R29), what an operation
leaves of the rest of the state (R32), how it is answered (30_encoding.md R76), and what a list of command
words sends to a context (41_digest_engine.md R148). -/

namespace Sys2Proof.Machine

/-! ## The invariant -/

/-- The store of table `t` holds `BuildTable(p)`, every entry. -/
def HoldsTable (s : State) (t : TabNo) (p : U16) : Prop :=
  ∀ i : Byte, s.block.tab.read (entryAddr t i) = some (entry p i)

/-- What every state a run reaches is like. -/
structure Inv (s : State) : Prop where
  /-- The table space is in its canonical form (log 5). -/
  canonical : s.block.tab.wf = true
  /-- Table 0 holds the table of 0x8005 (R27, R103). -/
  ansi : HoldsTable s TabNo.ansi Config.ansiPoly
  /-- Table 1 holds the table of 0x1021 (R27, R103). -/
  ccitt : HoldsTable s TabNo.ccitt Config.ccittPoly
  /-- `UV[k]` = 1: the slot holds the table of some polynomial (R28). -/
  built : ∀ k : Slot, readUv s k = true → ∃ p : U16, HoldsTable s (slotTab k) p
  /-- `UV[k]` = 0: the slot has no value since reset (R28). -/
  unbuilt : ∀ k : Slot, readUv s k = false → ∀ i : Byte, s.block.tab.read (entryAddr (slotTab k) i) = none
  /-- `TREF[c]` = 0, or `TREF[c]` = 1, or `UV[TREF[c] - 2]` = 1 (R29). -/
  refs : ∀ c : Ctx, notBuilt s (readTref s c) = false

/-! ## Frames and answers -/

/-- From `s` to `t` the block answered one word with response `r` and emitted `bytes`, and what waits on `cmd`
and the count of resets are as before. -/
structure Answered (s t : State) (r : Word) (bytes : List Byte) : Prop where
  rsp : t.port.rsp = s.port.rsp ++ [r]
  obyte : t.port.obyte = s.port.obyte ++ bytes
  cmd : t.port.cmd = s.port.cmd
  resets : t.resets = s.resets

/-- No `CRC`, no `TREF` of any context differs. -/
structure SameContexts (s t : State) : Prop where
  crc : ∀ c : Ctx, readCrc t c = readCrc s c
  tref : ∀ c : Ctx, readTref t c = readTref s c

/-- No entry of the table space and no `UV` bit differs. -/
structure SameTables (s t : State) : Prop where
  tab : ∀ a : BitVec 10, t.block.tab.read a = s.block.tab.read a
  uv : ∀ k : Slot, readUv t k = readUv s k

/-- The context an operation names (R23): none for BUILD, MKTAB and TREAD. -/
def contextOf : Instr → Option Ctx
  | .build _ _ => none
  | .mktab _ _ => none
  | .tread _ _ => none
  | .new c _ => some c
  | .reset c => some c
  | .write c _ => some c
  | .sum16 c => some c
  | .sum c => some c
  | .blksz c => some c
  | .size c => some c

/-! ## Words and runs -/

/-- A word put together as R71 and R74 describe it: a row's match value, with operand bits in `CTX`, `TSEL` and
`ARG`. It is written apart from the encoder, for claims to hold the decoder against. -/
def rowWord (pattern : Word) (ctx tsel : BitVec 2) (arg : U16) : Word :=
  pattern ||| (ctx.setWidth 32 <<< 26) ||| (tsel.setWidth 32 <<< 24) ||| arg.setWidth 32

/-- `n` steps of the machine, as `Host.Core.run` takes them (`Laws/Run.lean` says that they are the same). -/
def runFor : Nat → State → Host.Outcome State Fault Refusal
  | 0, s => .next s
  | n + 1, s =>
    match step s with
    | .next t => runFor n t
    | .fault r => .fault r
    | .refused r => .refused r

/-- The machine after reset with inputs presented. -/
def started (inputs : List Input) : State :=
  { State.reset with port := { cmd := inputs, rsp := [], obyte := [] } }

/-- The operation is one of the five that only read (R33). -/
def pureRead : Instr → Bool
  | .build _ _ => false
  | .mktab _ _ => false
  | .tread _ _ => true
  | .new _ _ => false
  | .reset _ => false
  | .write _ _ => false
  | .sum16 _ => true
  | .sum _ => true
  | .blksz _ => true
  | .size _ => true

/-- The word is one of those operations. -/
def pureReadWord (w : Word) : Bool :=
  match decode w with
  | .legal i => pureRead i
  | .illegal => false

/-- The word is a NEW of context `c`. -/
def renews (c : Ctx) (w : Word) : Bool :=
  match decode w with
  | .legal (.new c' _) => c' == c
  | _ => false

/-! ## Lists of command words -/

/-- The words of a list as the host presents them. -/
def asInputs (ws : List Word) : List Input := ws.map .word

/-- The byte a word writes to context `c`, if it is a WRITE to `c`. -/
def byteTo (c : Ctx) (w : Word) : Option Byte :=
  match decode w with
  | .legal (.write c' b) => if c' = c then some b else none
  | _ => none

/-- The bytes a list of words writes to context `c`, in order (R148). -/
def writtenTo (c : Ctx) (ws : List Word) : List Byte := ws.filterMap (byteTo c)

/-- The word is a NEW or a RESET of context `c`: the digest that `c` holds may end there. -/
def restarts (c : Ctx) (w : Word) : Bool :=
  match decode w with
  | .legal (.new c' _) => c' == c
  | .legal (.reset c') => c' == c
  | _ => false

end Sys2Proof.Machine
end

