-- ==== Sys2Proof/Certificates/Slice0/Obligations.lean ====
section
/-! DEFINITION. What the provers are asked to prove of the model. Each statement's docstring names the rule of
the spec it formalises, or the log entry it rests on. Wherever a statement speaks of `port`, that the three
channels of R70 are data of the state, `cmd` a list that waits and the other two lists that grow, is the model's
choice (log 1). -/

open Sys2Proof Sys2Proof.Machine

/-! ## The arithmetic -/

/-- R100: `Entry(p, i)` is `x_8`, where `x_0 = zext_16(i)` and each of the 8 iterations tests bit 0 before the
shift, shifts right by one and exclusive-ors with `p` when the bit was 1; and the rule's worked example. -/
def Obligations.EntryIsEightIterations : Prop :=
  (∀ (p : U16) (i : Byte) (x : Nat → U16), x 0 = i.setWidth 16 →
    (∀ n, 1 ≤ n → n ≤ 8 → x n = if (x (n - 1)).getLsbD 0 then (x (n - 1) >>> 1) ^^^ p else x (n - 1) >>> 1) →
    entry p i = x 8) ∧
  entry 0x8005#16 0x01#8 = 0x9705#16

/-- R108 (a) to (e). -/
def Obligations.EntryIsLinearAndRevealsPolynomial : Prop :=
  (∀ p : U16, entry p 0x00#8 = 0x0000#16) ∧
  (∀ p : U16, entry p 0x80#8 = p) ∧
  (∀ (p : U16) (a b : Byte), entry p (a ^^^ b) = entry p a ^^^ entry p b) ∧
  (∀ T : Table, (∀ a b : Byte, T (a ^^^ b) = T a ^^^ T b) →
    ∀ p : U16, (∀ n < 8, T (BitVec.twoPow 8 n) = entry p (BitVec.twoPow 8 n)) → ∀ i : Byte, T i = entry p i) ∧
  (∀ i : Byte, entry 0x0000#16 i = 0x0000#16) ∧
  ([(0x8005, [0x9705, 0x2E01, 0xC007, 0x0D00, 0x8005, 0x8D05]),
    (0x1021, [0x17CE, 0x0FDF, 0x1831, 0x02A5, 0x1021, 0x1284]),
    (0xA001, [0xC0C1, 0xC181, 0xF001, 0xE041, 0xA001, 0x4040]),
    (0x8408, [0x1189, 0x2312, 0x4204, 0x8B70, 0x8408, 0x0F78]),
    (0x1022, [0x02A5, 0x054A, 0x0811, 0x0E7D, 0x1022, 0x1E5F]),
    (0xFFFF, [0x0200, 0x0400, 0x8000, 0xFE00, 0xFFFF, 0x01FF]),
    (0x0001, [0x0001, 0x0001, 0x0001, 0x0001, 0x0001, 0x0000]),
    (0x8000, [0x0100, 0x0200, 0x4000, 0x7F00, 0x8000, 0xFF00]),
    (0x0000, [0x0000, 0x0000, 0x0000, 0x0000, 0x0000, 0x0000])] : List (Nat × List Nat)).all
      (fun r => ([0x01, 0x02, 0x40, 0x7F, 0x80, 0xFF] : List Nat).map
        (fun i => (entry (BitVec.ofNat 16 r.1) (BitVec.ofNat 8 i)).toNat) == r.2) = true

/-- R104: the cached table for exactly the two named polynomials, a fresh one for every other, and as a value
always `BuildTable(p)`. -/
def Obligations.TableForAgreesWithBuildTable : Prop :=
  tableFor 0x8005#16 = cachedAnsi ∧ tableFor 0x1021#16 = cachedCcitt ∧
  cachedAnsi = buildTable 0x8005#16 ∧ cachedCcitt = buildTable 0x1021#16 ∧
  ∀ p : U16, tableFor p = buildTable p

/-- R130, R131: `Update` complements the crc, folds the bytes first byte first, each through
`T[x[7:0] ^ b] ^ (x >> 8)`, and complements the result; and the two rules' examples. -/
def Obligations.UpdateFoldsBytesInOrder : Prop :=
  (∀ (T : Table) (x : U16) (b : Byte), foldByte T x b = T (x.setWidth 8 ^^^ b) ^^^ (x >>> 8)) ∧
  (∀ (crc : U16) (T : Table) (data : List Byte) (x : Nat → U16), x 0 = crc ^^^ 0xFFFF#16 →
    (∀ (j : Nat) (h : j < data.length), x (j + 1) = T ((x j).setWidth 8 ^^^ data[j]) ^^^ (x j >>> 8)) →
    update crc T data = x data.length ^^^ 0xFFFF#16) ∧
  foldByte (buildTable 0x8005#16) 0xFFFF#16 0x31#8 = 0x8AFA#16 ∧
  update 0x0000#16 (buildTable 0x8005#16) [0x31#8] = 0x7505#16

/-- R132, R133: the empty update is the identity, chaining two updates is one update over both, and one-byte
updates one after another are one update over all the bytes. -/
def Obligations.UpdateChains : Prop :=
  (∀ (crc : U16) (T : Table), update crc T [] = crc) ∧
  (∀ (crc : U16) (T : Table) (a b : List Byte), update (update crc T a) T b = update crc T (a ++ b)) ∧
  (∀ (crc : U16) (T : Table) (data : List Byte), data.foldl (fun v b => update v T [b]) crc = update crc T data) ∧
  ∀ T : Table, checksum [] T = 0x0000#16

/-- R135: the one-byte form, both spellings. -/
def Obligations.OneByteUpdateForm : Prop :=
  ∀ (crc : U16) (T : Table) (b : Byte),
    update crc T [b] = ~~~(T ((~~~crc).setWidth 8 ^^^ b) ^^^ ((~~~crc) >>> 8)) ∧
    update crc T [b] = T (crc.setWidth 8 ^^^ b ^^^ 0xFF#8) ^^^ (crc >>> 8) ^^^ 0xFF00#16

/-- R137: the prefix unchanged, then the high byte, then the low byte; and what SUM emits is the empty prefix's
two bytes, which the host puts after its own prefix. -/
def Obligations.SumBytesIsPrefixThenBigEndian : Prop :=
  (∀ (pre : List Byte) (v : U16),
    sumBytes pre v = pre ++ [(v >>> 8).setWidth 8, v.setWidth 8] ∧
    (sumBytes pre v).length = pre.length + 2 ∧ (sumBytes pre v).take pre.length = pre) ∧
  ∀ (c : Ctx) (s : State), ∃ t, exec (.sum c) s = .next t ∧
    Answered s t 0x00000000#32 (sumBytes [] (readCrc s c)) ∧
    ∀ pre : List Byte, sumBytes pre (readCrc s c) = pre ++ sumBytes [] (readCrc s c)

/-- 90_conflicts.md C1 and R173, R174, R177: the values the algorithm gives for "123456789", not DOC0's two
literals; and the inputs on which the two cached tables agree. -/
def Obligations.KnownAnswersFollowTheAlgorithm : Prop :=
  checksum [0x31#8, 0x32#8, 0x33#8, 0x34#8, 0x35#8, 0x36#8, 0x37#8, 0x38#8, 0x39#8] cachedAnsi = 0xC284#16 ∧
  checksum [0x31#8, 0x32#8, 0x33#8, 0x34#8, 0x35#8, 0x36#8, 0x37#8, 0x38#8, 0x39#8] cachedCcitt = 0xE245#16 ∧
  (∀ p : U16, checksum [0xFF#8] (buildTable p) = 0xFF00#16) ∧
  checksum [0x12#8, 0x10#8] cachedAnsi = 0xE72C#16 ∧ checksum [0x12#8, 0x10#8] cachedCcitt = 0xE72C#16

/-- R34, R35: the 512 listed values are what tables 0 and 1 hold at reset, and no step changes them; and the
rules' checks (the exclusive or of all entries is 0, the entries are pairwise distinct). -/
def Obligations.CachedTablesAreTheListedValues : Prop :=
  ansiListing.length = 256 ∧ ccittListing.length = 256 ∧
  (∀ i : Byte, ansiListing[i.toNat]? = some (entry 0x8005#16 i)) ∧
  (∀ i : Byte, ccittListing[i.toNat]? = some (entry 0x1021#16 i)) ∧
  (∀ i : Byte, State.reset.block.tab.read (entryAddr TabNo.ansi i) = ansiListing[i.toNat]?) ∧
  (∀ i : Byte, State.reset.block.tab.read (entryAddr TabNo.ccitt i) = ccittListing[i.toNat]?) ∧
  (∀ s t : State, step s = .next t →
    (∀ i : Byte, s.block.tab.read (entryAddr TabNo.ansi i) = ansiListing[i.toNat]?) →
    (∀ i : Byte, s.block.tab.read (entryAddr TabNo.ccitt i) = ccittListing[i.toNat]?) →
    (∀ i : Byte, t.block.tab.read (entryAddr TabNo.ansi i) = ansiListing[i.toNat]?) ∧
    (∀ i : Byte, t.block.tab.read (entryAddr TabNo.ccitt i) = ccittListing[i.toNat]?)) ∧
  ansiListing.foldl (· ^^^ ·) 0x0000#16 = 0x0000#16 ∧ ccittListing.foldl (· ^^^ ·) 0x0000#16 = 0x0000#16 ∧
  ansiListing.Nodup ∧ ccittListing.Nodup

/-! ## Encoding -/

/-- R75: a word is the operation of whichever row it matches, in any order of the rows, and ILLEGAL when it
matches none; `encode` and `decode` are inverse on the legal words. -/
def Obligations.DecodeAndEncodeAreInverse : Prop :=
  (∀ (w : Word) (r : Row), r ∈ opcodeRows → w &&& r.mask = r.pattern → decode w = .legal (operation r.mnemonic w)) ∧
  (∀ w : Word, (∀ r ∈ opcodeRows, w &&& r.mask ≠ r.pattern) → decode w = .illegal) ∧
  (∀ (w : Word) (i : Instr), decode w = .legal i → encode i = w) ∧
  ∀ i : Instr, decode (encode i) = .legal i

/-- The rows of R74 with every operand at every value, each word put together from the row's match value and
the fields of R71 and R72, apart from the encoder; and no word matches two rows. -/
def Obligations.OpcodeMapWordsDecode : Prop :=
  (∀ (k : Slot) (p : U16), decode (rowWord 0x12000000#32 0#2 (BitVec.ofNat 2 k.val) p) = .legal (.build k p)) ∧
  (∀ (k : Slot) (p : U16), decode (rowWord 0x22000000#32 0#2 (BitVec.ofNat 2 k.val) p) = .legal (.mktab k p)) ∧
  (∀ (t : TabNo) (i : Byte), decode (rowWord 0x30000000#32 0#2 t (i.setWidth 16)) = .legal (.tread t i)) ∧
  (∀ (c : Ctx) (t : TabNo), decode (rowWord 0x40000000#32 (BitVec.ofNat 2 c.val) t 0#16) = .legal (.new c t)) ∧
  (∀ c : Ctx, decode (rowWord 0x50000000#32 (BitVec.ofNat 2 c.val) 0#2 0#16) = .legal (.reset c)) ∧
  (∀ (c : Ctx) (b : Byte),
    decode (rowWord 0x60000000#32 (BitVec.ofNat 2 c.val) 0#2 (b.setWidth 16)) = .legal (.write c b)) ∧
  (∀ c : Ctx, decode (rowWord 0x70000000#32 (BitVec.ofNat 2 c.val) 0#2 0#16) = .legal (.sum16 c)) ∧
  (∀ c : Ctx, decode (rowWord 0x80000000#32 (BitVec.ofNat 2 c.val) 0#2 0#16) = .legal (.sum c)) ∧
  (∀ c : Ctx, decode (rowWord 0x90000000#32 (BitVec.ofNat 2 c.val) 0#2 0#16) = .legal (.blksz c)) ∧
  (∀ c : Ctx, decode (rowWord 0xA0000000#32 (BitVec.ofNat 2 c.val) 0#2 0#16) = .legal (.size c)) ∧
  ∀ (w : Word) (r q : Row), r ∈ opcodeRows → q ∈ opcodeRows →
    w &&& r.mask = r.pattern → w &&& q.mask = q.pattern → r = q

/-- R74: the number of words that are some operation is 264228. -/
def Obligations.LegalWordsAre264228 : Prop :=
  ∃ l : List Word, l.Nodup ∧ l.length = 264228 ∧ ∀ w : Word, w ∈ l ↔ decode w ≠ .illegal

/-- R80: the ILLEGAL words are exactly those of the classes I1 to I8, and each is answered 0x10000000, emits no
byte and changes no state. -/
def Obligations.IllegalWordsAreTheEightClasses : Prop :=
  (∀ w : Word, decode w = .illegal ↔ ∃ q : IllegalClass, q.condition w = true) ∧
  ∀ (w : Word) (s : State), decode w = .illegal →
    ∃ t, execWord w s = .next t ∧ t.block = s.block ∧ Answered s t 0x10000000#32 []

/-- Words written out from 95_test_vectors.md: eleven of V50 decode to the operations they stand for, and the last,
0x00000000 of V51 (R80 class I1), is ILLEGAL. -/
def Obligations.ListedWordsDecode : Prop :=
  decode 0x12000000#32 = .legal (.build 0 0x0000#16) ∧ decode 0x1300FFFF#32 = .legal (.build 1 0xFFFF#16) ∧
  decode 0x22008005#32 = .legal (.mktab 0 0x8005#16) ∧ decode 0x330000FF#32 = .legal (.tread 3#2 0xFF#8) ∧
  decode 0x4F000000#32 = .legal (.new 3 3#2) ∧ decode 0x5C000000#32 = .legal (.reset 3) ∧
  decode 0x6C0000FF#32 = .legal (.write 3 0xFF#8) ∧ decode 0x7C000000#32 = .legal (.sum16 3) ∧
  decode 0x8C000000#32 = .legal (.sum 3) ∧ decode 0x9C000000#32 = .legal (.blksz 3) ∧
  decode 0xAC000000#32 = .legal (.size 3) ∧ decode 0x00000000#32 = .illegal

/-- R83: a line that is not `.word` never assembles to an ILLEGAL word, and a line with an operand out of its
range does not assemble. -/
def Obligations.AssemblerMakesOnlyLegalWords : Prop :=
  (∀ (l : AsmLine) (ws : List Word), Assembler.assemble l = some ws → (∀ n, l ≠ .word n) →
    ∀ w ∈ ws, decode w ≠ .illegal) ∧
  ∀ l : AsmLine, Assembler.assemble l = none ↔ l.wf = false

/-- R50: the entry address of `{t, i}`: table `t` is the 256 addresses from `256 t`, user slot `k` is table
`2 + k`, and every 10-bit address is exactly one entry's. -/
def Obligations.EntryAddressesAreTheMap : Prop :=
  (∀ (t : TabNo) (i : Byte), (entryAddr t i).toNat = 256 * t.toNat + i.toNat) ∧
  (∀ a : BitVec 10, entryAddr (addrTab a) (addrIndex a) = a) ∧
  (∀ (t : TabNo) (i : Byte), addrTab (entryAddr t i) = t ∧ addrIndex (entryAddr t i) = i) ∧
  ∀ k : Slot, (slotTab k).toNat = 2 + k.val

/-! ## The operations: result, refusal and frame -/

/-- R105. On a slot no context holds, BUILD completes: the 256 entries of table `2 + k` become `Entry(p, i)`,
`UV[k]` becomes 1, the response is OK with VAL `2 + k`; every other entry, the other slot's `UV` bit, every
`CRC` and `TREF` are unchanged. On a slot some context holds it answers INUSE and changes nothing. A build of
0x8005 gives a table equal to table 0's. -/
def Obligations.BuildFillsFreeSlotOrAnswersInuse : Prop :=
  ∀ (k : Slot) (p : U16) (s : State),
    decode (rowWord 0x12000000#32 0#2 (BitVec.ofNat 2 k.val) p) = .legal (.build k p) ∧
    ((∀ c : Ctx, readTref s c ≠ slotTab k) →
      ∃ t, exec (.build k p) s = .next t ∧
        (∀ a : BitVec 10, addrTab a = slotTab k → t.block.tab.read a = some (entry p (addrIndex a))) ∧
        (∀ a : BitVec 10, addrTab a ≠ slotTab k → t.block.tab.read a = s.block.tab.read a) ∧
        readUv t k = true ∧ (∀ k' : Slot, k' ≠ k → readUv t k' = readUv s k') ∧
        SameContexts s t ∧ Answered s t (BitVec.ofNat 32 (2 + k.val)) [] ∧
        (p = 0x8005#16 → ∀ i : Byte, tabRead t (slotTab k) i = entry 0x8005#16 i)) ∧
    ((∃ c : Ctx, readTref s c = slotTab k) →
      ∃ t, exec (.build k p) s = .next t ∧ t.block = s.block ∧ Answered s t 0x30000000#32 [])

/-- R106. MKTAB of a named polynomial answers its cached table's number and changes nothing, whatever holds the
slot; of any other polynomial it is BUILD, its INUSE check and its response included. -/
def Obligations.MktabNamesCachedTableOrBuilds : Prop :=
  ∀ (k : Slot) (p : U16) (s : State),
    decode (rowWord 0x22000000#32 0#2 (BitVec.ofNat 2 k.val) p) = .legal (.mktab k p) ∧
    (p = 0x8005#16 → ∃ t, exec (.mktab k p) s = .next t ∧ t.block = s.block ∧ Answered s t 0x00000000#32 []) ∧
    (p = 0x1021#16 → ∃ t, exec (.mktab k p) s = .next t ∧ t.block = s.block ∧ Answered s t 0x00000001#32 []) ∧
    (p ≠ 0x8005#16 → p ≠ 0x1021#16 →
      exec (.mktab k p) s = exec (.build k p) s ∧
      ((∀ c : Ctx, readTref s c ≠ slotTab k) →
        ∃ t, exec (.mktab k p) s = .next t ∧
          (∀ a : BitVec 10, addrTab a = slotTab k → t.block.tab.read a = some (entry p (addrIndex a))) ∧
          (∀ a : BitVec 10, addrTab a ≠ slotTab k → t.block.tab.read a = s.block.tab.read a) ∧
          readUv t k = true ∧ (∀ k' : Slot, k' ≠ k → readUv t k' = readUv s k') ∧
          SameContexts s t ∧ Answered s t (BitVec.ofNat 32 (2 + k.val)) []) ∧
      ((∃ c : Ctx, readTref s c = slotTab k) →
        ∃ t, exec (.mktab k p) s = .next t ∧ t.block = s.block ∧ Answered s t 0x30000000#32 []))

/-- R107. TREAD of a readable table completes with the entry and changes nothing; of a user slot not built since
reset it answers NOTABLE and changes nothing. Of a table built from `p`, entry 0x00 is 0 and entry 0x80 is `p`. -/
def Obligations.TreadAnswersEntryOrNotable : Prop :=
  ∀ (n : TabNo) (i : Byte) (s : State),
    decode (rowWord 0x30000000#32 0#2 n (i.setWidth 16)) = .legal (.tread n i) ∧
    ((∀ k : Slot, n = slotTab k → readUv s k = true) →
      ∃ t, exec (.tread n i) s = .next t ∧ t.block = s.block ∧
        Answered s t (0x0000#16 ++ tabRead s n i) [] ∧
        ∀ p : U16, HoldsTable s n p →
          tabRead s n i = entry p i ∧ (i = 0x00#8 → tabRead s n i = 0x0000#16) ∧ (i = 0x80#8 → tabRead s n i = p)) ∧
    ((∃ k : Slot, n = slotTab k ∧ readUv s k = false) →
      ∃ t, exec (.tread n i) s = .next t ∧ t.block = s.block ∧ Answered s t 0x20000000#32 [])

/-- R141. NEW over a table that is there completes: the crc of `c` is 0 and its table is `n`; no other context,
no table and no `UV` bit changes. Over a user slot not built since reset it answers NOTABLE and changes
nothing. NEW with the table the context already has equals RESET; and a slot whose last holder was `c` is free
after a NEW with another table. -/
def Obligations.NewStartsFreshDigestOrAnswersNotable : Prop :=
  ∀ (c : Ctx) (n : TabNo) (s : State),
    decode (rowWord 0x40000000#32 (BitVec.ofNat 2 c.val) n 0#16) = .legal (.new c n) ∧
    ((∀ k : Slot, n = slotTab k → readUv s k = true) →
      ∃ t, exec (.new c n) s = .next t ∧ readCrc t c = 0x0000#16 ∧ readTref t c = n ∧
        (∀ c' : Ctx, c' ≠ c → readCrc t c' = readCrc s c' ∧ readTref t c' = readTref s c') ∧
        SameTables s t ∧ Answered s t 0x00000000#32 [] ∧
        (n = readTref s c → exec (.reset c) s = .next t) ∧
        ∀ k : Slot, n ≠ slotTab k → (∀ c' : Ctx, c' ≠ c → readTref s c' ≠ slotTab k) →
          ∀ c' : Ctx, readTref t c' ≠ slotTab k) ∧
    ((∃ k : Slot, n = slotTab k ∧ readUv s k = false) →
      ∃ t, exec (.new c n) s = .next t ∧ t.block = s.block ∧ Answered s t 0x20000000#32 [])

/-- R142. RESET always completes: the crc of `c` is 0; its table reference, every other context and every table
are unchanged. Twice is once, on a crc of 0 it changes nothing, and it equals a NEW with the present table. -/
def Obligations.ResetClearsCrcKeepsTableReference : Prop :=
  ∀ (c : Ctx) (s : State),
    decode (rowWord 0x50000000#32 (BitVec.ofNat 2 c.val) 0#2 0#16) = .legal (.reset c) ∧
    ∃ t, exec (.reset c) s = .next t ∧ readCrc t c = 0x0000#16 ∧
      (∀ c' : Ctx, c' ≠ c → readCrc t c' = readCrc s c') ∧ (∀ c' : Ctx, readTref t c' = readTref s c') ∧
      SameTables s t ∧ Answered s t 0x00000000#32 [] ∧
      (readCrc s c = 0x0000#16 → t.block = s.block) ∧
      (∃ u, exec (.reset c) t = .next u ∧ u.block = t.block) ∧
      ((∀ k : Slot, readTref s c = slotTab k → readUv s k = true) → exec (.new c (readTref s c)) s = .next t)

/-- R143. WRITE always completes: the crc of `c` becomes `Update(CRC[c], TAB[TREF[c]], [b])`, VAL is 1, and
nothing else changes. A crc of 0xFFFF stays 0xFFFF under byte 0x00 with any table whose entry 0x00 is 0. In a
state the invariant rules out the entry read may be the free value, and the statement holds for every value. -/
def Obligations.WriteFoldsOneByte : Prop :=
  ∀ (c : Ctx) (b : Byte) (s : State),
    decode (rowWord 0x60000000#32 (BitVec.ofNat 2 c.val) 0#2 (b.setWidth 16)) = .legal (.write c b) ∧
    ∃ t, exec (.write c b) s = .next t ∧
      readCrc t c = update (readCrc s c) (tableAt s (readTref s c)) [b] ∧
      (∀ c' : Ctx, c' ≠ c → readCrc t c' = readCrc s c') ∧ (∀ c' : Ctx, readTref t c' = readTref s c') ∧
      SameTables s t ∧ Answered s t 0x00000001#32 [] ∧
      (readCrc s c = 0xFFFF#16 → b = 0x00#8 → tabRead s (readTref s c) 0x00#8 = 0x0000#16 →
        readCrc t c = 0xFFFF#16)

/-- R144. SUM16 always completes: VAL is the crc of `c`, and nothing changes; a WRITE after it gives the crc it
would have given without it. Right after reset of the block, after a RESET and after a NEW that is carried out it
answers 0. -/
def Obligations.Sum16AnswersCrc : Prop :=
  (∀ (c : Ctx) (s : State),
    decode (rowWord 0x70000000#32 (BitVec.ofNat 2 c.val) 0#2 0#16) = .legal (.sum16 c) ∧
    ∃ t, exec (.sum16 c) s = .next t ∧ t.block = s.block ∧ Answered s t (0x0000#16 ++ readCrc s c) [] ∧
      ∀ b : Byte, ∃ u v, exec (.write c b) t = .next u ∧ exec (.write c b) s = .next v ∧ readCrc u c = readCrc v c) ∧
  (∀ c : Ctx, ∃ t, exec (.sum16 c) State.reset = .next t ∧ Answered State.reset t 0x00000000#32 []) ∧
  (∀ (c : Ctx) (s : State), ∃ t u, exec (.reset c) s = .next t ∧ exec (.sum16 c) t = .next u ∧
    Answered t u 0x00000000#32 []) ∧
  ∀ (c : Ctx) (n : TabNo) (s : State), (∀ k : Slot, n = slotTab k → readUv s k = true) →
    ∃ t u, exec (.new c n) s = .next t ∧ exec (.sum16 c) t = .next u ∧ Answered t u 0x00000000#32 []

/-- R145. SUM always completes: it emits the high byte of the crc of `c`, then the low byte, VAL is 0, and
nothing changes; the two bytes together are what SUM16 answers. -/
def Obligations.SumEmitsCrcBigEndian : Prop :=
  ∀ (c : Ctx) (s : State),
    decode (rowWord 0x80000000#32 (BitVec.ofNat 2 c.val) 0#2 0#16) = .legal (.sum c) ∧
    ∃ t, exec (.sum c) s = .next t ∧ t.block = s.block ∧
      ∃ hi lo : Byte, Answered s t 0x00000000#32 [hi, lo] ∧
        hi = (readCrc s c).extractLsb' 8 8 ∧ lo = (readCrc s c).extractLsb' 0 8 ∧
        ∃ u, exec (.sum16 c) s = .next u ∧ Answered s u (0x0000#16 ++ (hi ++ lo)) []

/-- R146. BLKSZ always completes with VAL 1 and changes nothing, for every context. -/
def Obligations.BlkszAnswersOne : Prop :=
  ∀ (c : Ctx) (s : State),
    decode (rowWord 0x90000000#32 (BitVec.ofNat 2 c.val) 0#2 0#16) = .legal (.blksz c) ∧
    ∃ t, exec (.blksz c) s = .next t ∧ t.block = s.block ∧ Answered s t 0x00000001#32 []

/-- R147. SIZE always completes with VAL 2 and changes nothing, for every context; 2 is the length of what SUM
emits. -/
def Obligations.SizeAnswersTwo : Prop :=
  ∀ (c : Ctx) (s : State),
    decode (rowWord 0xA0000000#32 (BitVec.ofNat 2 c.val) 0#2 0#16) = .legal (.size c) ∧
    ∃ t, exec (.size c) s = .next t ∧ t.block = s.block ∧ Answered s t 0x00000002#32 [] ∧
      ∃ u bytes, exec (.sum c) s = .next u ∧ Answered s u 0x00000000#32 bytes ∧ bytes.length = 2

/-! ## Statuses and responses -/

/-- R190, R191: which word gets which status, decode first, a named polynomial before the in-use check; a refused
command changes no state, has VAL 0 and emits nothing. -/
def Obligations.StatusIsByTheTableOfCauses : Prop :=
  ∀ (w : Word) (s : State), ∃ t st val bytes,
    execWord w s = .next t ∧ Answered s t (responseWord st val) bytes ∧
    (st ≠ .ok → t.block = s.block ∧ val = 0x0000#16 ∧ bytes = []) ∧
    (st = .illegal ↔ decode w = .illegal) ∧
    (st = .notable ↔ ∃ k : Slot, readUv s k = false ∧
      ((∃ i, decode w = .legal (.tread (slotTab k) i)) ∨ ∃ c, decode w = .legal (.new c (slotTab k)))) ∧
    (st = .inuse ↔ ∃ (k : Slot) (p : U16), (∃ c : Ctx, readTref s c = slotTab k) ∧
      (decode w = .legal (.build k p) ∨
        (decode w = .legal (.mktab k p) ∧ p ≠ 0x8005#16 ∧ p ≠ 0x1021#16))) ∧
    (∀ k : Slot, decode w = .legal (.mktab k 0x8005#16) → st = .ok ∧ val = 0x0000#16) ∧
    (∀ k : Slot, decode w = .legal (.mktab k 0x1021#16) → st = .ok ∧ val = 0x0001#16)

/-- R76: every response is `{STATUS, 0x000, VAL}` with a status of 0 to 3 and VAL 0 unless the status is OK; the
bytes go to the end of `obyte`. -/
def Obligations.ResponsesHaveTheOneFormat : Prop :=
  ∀ (w : Word) (s : State), ∃ t r bytes,
    execWord w s = .next t ∧ Answered s t r bytes ∧
    r.extractLsb' 28 4 ≤ 3#4 ∧ r.extractLsb' 16 12 = 0x000#12 ∧
    (r.extractLsb' 28 4 ≠ 0#4 → r.extractLsb' 0 16 = 0x0000#16) ∧
    (bytes = [] ∨ ∃ c, decode w = .legal (.sum c) ∧ bytes.length = 2)

/-- R195: after a refused word the next word has the outcome it would have had if the refused one had never been
sent: the same block afterwards, the same response, the same bytes. -/
def Obligations.RefusalLeavesNoTrace : Prop :=
  ∀ (s t : State) (w w' r : Word), execWord w s = .next t → t.port.rsp = s.port.rsp ++ [r] →
    r.extractLsb' 28 4 ≠ 0#4 →
    ∃ u v r' bytes, execWord w' t = .next u ∧ execWord w' s = .next v ∧ u.block = v.block ∧
      Answered t u r' bytes ∧ Answered s v r' bytes

/-! ## The step -/

/-- A step on a command word that decodes is `exec` of that operation (R70, R75), on the state with the word taken
from `cmd` and nothing else changed. That the words presented wait in a list `cmd` of the state, from which the step
takes the first, is the MODEL'S CHOICE (log 1): R70 gives the step its word as an argument, and R30 says that the
channels are no state of the block. -/
def Obligations.StepRunsTheDecodedOperation : Prop :=
  ∀ (s : State) (w : Word) (rest : List Input) (i : Instr),
    s.port.cmd = .word w :: rest → decode w = .legal i →
    step s = exec i { s with port := { s.port with cmd := rest } }

/-- R70 (the step function is total on command words), with log 1, log 2 and log 3, the MODEL'S CHOICES, for the
rest: a step stops when, and only when, the host has presented nothing. -/
def Obligations.StepStopsOnlyWithNothingPresented : Prop :=
  ∀ s : State, (s.port.cmd = [] → step s = .refused .noCommand) ∧ (s.port.cmd ≠ [] → ∃ t, step s = .next t)

/-- R223: a run of `n` command words has exactly `n` steps, after which all are answered, one response each, and
the block is ready for the next word. -/
def Obligations.EveryWordIsAnswered : Prop :=
  ∀ (ws : List Word) (rest : List Input) (s : State), s.port.cmd = asInputs ws ++ rest →
    ∃ t rs, runFor ws.length s = .next t ∧ t.port.cmd = rest ∧ t.port.rsp = s.port.rsp ++ rs ∧ rs.length = ws.length

/-- What a step does to the block and what it answers depend on the block and the input taken, not on what waits
behind it and not on what was answered before. For a command word this is R60. The rest is the MODEL'S CHOICE, no
rule of the spec: that the channels are data of the state (log 1), that a reset of the block is an input too and
keeps what waits behind it and what was answered (log 3), and the count of resets in hypothesis and conclusion
(log 4). -/
def Obligations.StepDependsOnBlockAndFirstInput : Prop :=
  ∀ (s s' t : State) (e : Input) (rest rest' : List Input),
    s.port.cmd = e :: rest → s'.port.cmd = e :: rest' → s'.block = s.block → s'.resets = s.resets →
    step s = .next t →
    ∃ t' rs bytes, step s' = .next t' ∧ t'.block = t.block ∧ t'.resets = t.resets ∧
      t.port = { cmd := rest, rsp := s.port.rsp ++ rs, obyte := s.port.obyte ++ bytes } ∧
      t'.port = { cmd := rest', rsp := s'.port.rsp ++ rs, obyte := s'.port.obyte ++ bytes }

/-- R33: the five pure reads change no state, and any number of them before other words changes no later
response: the words `vs` behind them are answered as they would be without them, with the same bytes and the same
state of the block at the end. -/
def Obligations.PureReadsChangeNoLaterResponse : Prop :=
  (∀ (i : Instr) (s : State), pureRead i = true → ∃ t, exec i s = .next t ∧ t.block = s.block) ∧
  ∀ (ws vs : List Word) (rest : List Input) (s s' : State),
    (∀ x ∈ ws, pureReadWord x = true) → s.port.cmd = asInputs ws ++ (asInputs vs ++ rest) →
    s' = { s with port := { s.port with cmd := asInputs vs ++ rest } } →
    ∃ m t t' rs bytes, runFor ws.length s = .next m ∧ runFor vs.length m = .next t ∧
      runFor vs.length s' = .next t' ∧ t.block = t'.block ∧ rs.length = vs.length ∧
      t.port.rsp = m.port.rsp ++ rs ∧ t'.port.rsp = s.port.rsp ++ rs ∧
      t.port.obyte = m.port.obyte ++ bytes ∧ t'.port.obyte = s.port.obyte ++ bytes

/-! ## Reset and invariants -/

/-- The state when reset ends, R31. The last clause is the MODEL'S RENDERING, no rule of the spec: R31 and U1 call
the entries of the user slots unspecified, and the model's table space gives them no value (log 5), a read of one
being the free value (log 4). -/
def Obligations.ResetStateIsAsTabled : Prop :=
  (∀ c : Ctx, readCrc State.reset c = 0x0000#16 ∧ readTref State.reset c = 0#2) ∧
  (∀ k : Slot, readUv State.reset k = false) ∧
  (∀ i : Byte, State.reset.block.tab.read (entryAddr 0#2 i) = some (entry 0x8005#16 i)) ∧
  (∀ i : Byte, State.reset.block.tab.read (entryAddr 1#2 i) = some (entry 0x1021#16 i)) ∧
  ∀ (i : Byte), State.reset.block.tab.read (entryAddr 2#2 i) = none ∧
    State.reset.block.tab.read (entryAddr 3#2 i) = none

/-- The model's rendering of 70_reset_and_hazards.md section 1 (that a reset is an input taken like a word, and
leaves what waits and what was answered, is log 3; that these are data of the state is log 1): whatever the block held before, after a reset it is the block of R31. -/
def Obligations.BlockResetRestoresEveryValue : Prop :=
  ∀ (s : State) (rest : List Input), s.port.cmd = .blockReset :: rest →
    ∃ t, step s = .next t ∧ t.block = State.reset.block ∧ t.port.cmd = rest ∧
      t.port.rsp = s.port.rsp ∧ t.port.obyte = s.port.obyte

/-- The invariant holds right after reset. -/
def Obligations.ResetMeetsInvariant : Prop := Inv State.reset

/-- Every step keeps the invariant: the canonical form of the table space, the cached tables (R27, R103), what
`UV` says of the slots (R28), and every table reference to a table that is there (R29). -/
def Obligations.StepKeepsInvariant : Prop :=
  ∀ s t : State, Inv s → step s = .next t → Inv t

/-- R29: in every state a run reaches, whatever the host presents, a context's table reference is 0, 1 or a built
slot's and its table holds `BuildTable(p)` for some `p`; and as long as the host presents no NEW on `c` and no
reset, neither the reference of `c` nor any entry of the table it names changes. -/
def Obligations.ReferencedTablesAreBuiltAndUnchanged : Prop :=
  (∀ (inputs : List Input) (n : Nat) (t : State), runFor n (started inputs) = .next t → ∀ c : Ctx,
    (readTref t c = 0#2 ∨ readTref t c = 1#2 ∨ ∃ k : Slot, readTref t c = slotTab k ∧ readUv t k = true) ∧
    ∃ p : U16, HoldsTable t (readTref t c) p) ∧
  ∀ (ws : List Word) (rest : List Input) (s : State) (c : Ctx), s.port.cmd = asInputs ws ++ rest →
    (∀ w ∈ ws, renews c w = false) →
    ∃ t, runFor ws.length s = .next t ∧ readTref t c = readTref s c ∧
      ∀ i : Byte, t.block.tab.read (entryAddr (readTref s c) i) = s.block.tab.read (entryAddr (readTref s c) i)

/-- R28 and R210 ("Reset is the only thing that clears a UV bit"), for every step from every state. -/
def Obligations.OnlyBlockResetClearsUv : Prop :=
  ∀ (s t : State) (k : Slot), step s = .next t → readUv s k = true → readUv t k = false →
    ∃ rest, s.port.cmd = .blockReset :: rest

/-- R150, R23: an operation changes no `CRC` and no `TREF` of a context it does not name; and two contexts with
the same table and the same crc, fed the same bytes by any words that start neither of them again, hold the same
crc. -/
def Obligations.ContextsAreIndependent : Prop :=
  (∀ (i : Instr) (s t : State) (c : Ctx), exec i s = .next t → contextOf i ≠ some c →
    readCrc t c = readCrc s c ∧ readTref t c = readTref s c) ∧
  ∀ (s : State) (c c' : Ctx) (ws : List Word) (rest : List Input), s.port.cmd = asInputs ws ++ rest →
    (∀ w ∈ ws, restarts c w = false ∧ restarts c' w = false) →
    readCrc s c = readCrc s c' → readTref s c = readTref s c' → writtenTo c ws = writtenTo c' ws →
    ∃ t, runFor ws.length s = .next t ∧ readCrc t c = readCrc t c' ∧ readTref t c = readTref t c'

/-- U1 (and log 4): from a state that meets the invariant the free value cannot be observed: whatever the count it
is taken at, a run ends with the same block, the same responses and the same bytes. -/
def Obligations.UnbuiltEntriesAreUnobservable : Prop :=
  ∀ (n r : Nat) (s t : State), Inv s → runFor n s = .next t →
    ∃ t', runFor n { s with resets := r } = .next t' ∧ t'.block = t.block ∧ t'.port = t.port

/-! ## Digests over many words -/

/-- R148: after a NEW of context `c` over a table that is there, any words that carry the bytes of `data` to `c`
by WRITEs in order, with any words between them that are no NEW and no RESET of `c`, leave
`CRC[c] = Update(0, TAB[t], data)`. -/
def Obligations.DigestIsUpdateOverBytesWritten : Prop :=
  ∀ (s : State) (c : Ctx) (n : TabNo) (ws : List Word) (rest : List Input),
    notBuilt s n = false → s.port.cmd = asInputs (encode (.new c n) :: ws) ++ rest →
    (∀ w ∈ ws, restarts c w = false) →
    ∃ t, runFor (ws.length + 1) s = .next t ∧
      readCrc t c = update 0x0000#16 (tableAt s n) (writtenTo c ws) ∧ readTref t c = n

/-- R171, R149: `WRITES` is one WRITE per byte in order; it completes with a response of 1 for each byte and
leaves the crc updated by all of them; and other words between them, no NEW and no RESET of `c`, do not change
that result. -/
def Obligations.WritesLineUpdatesByAllItsBytes : Prop :=
  (∀ (c : Ctx) (bytes : List Byte) (rest : List Input) (s : State),
    Assembler.assemble (.writes c.val (bytes.map BitVec.toNat)) = some (bytes.map fun b => encode (.write c b)) ∧
    (s.port.cmd = asInputs (bytes.map fun b => encode (.write c b)) ++ rest →
      ∃ t, runFor bytes.length s = .next t ∧
        readCrc t c = update (readCrc s c) (tableAt s (readTref s c)) bytes ∧
        t.port.rsp = s.port.rsp ++ List.replicate bytes.length 0x00000001#32 ∧ t.port.cmd = rest)) ∧
  ∀ (c : Ctx) (ws : List Word) (rest : List Input) (s : State), s.port.cmd = asInputs ws ++ rest →
    (∀ w ∈ ws, restarts c w = false) →
    ∃ t, runFor ws.length s = .next t ∧
      readCrc t c = update (readCrc s c) (tableAt s (readTref s c)) (writtenTo c ws)

/-- R172: the words of `CHECKSUM d<c>, <tab>, <bytes>` are NEW, the WRITEs, SUM16. Over a table that is there the
last response is OK with `Checksum(bytes, TAB[t])`, and the context is left with that crc and that table. Over a
slot that is not built the NEW is refused and the rest runs on the context's old contents. -/
def Obligations.ChecksumLineAnswersChecksum : Prop :=
  ∀ (s : State) (c : Ctx) (n : TabNo) (bytes : List Byte) (rest : List Input) (ws : List Word),
    Assembler.assemble (.checksum c.val n.toNat (bytes.map BitVec.toNat)) = some ws →
    s.port.cmd = asInputs ws ++ rest →
    ws = encode (.new c n) :: ((bytes.map fun b => encode (.write c b)) ++ [encode (.sum16 c)]) ∧
    (notBuilt s n = false →
      ∃ t rs, runFor ws.length s = .next t ∧
        t.port.rsp = s.port.rsp ++ rs ++ [0x0000#16 ++ checksum bytes (tableAt s n)] ∧
        rs = 0x00000000#32 :: List.replicate bytes.length 0x00000001#32 ∧
        readCrc t c = checksum bytes (tableAt s n) ∧ readTref t c = n) ∧
    (notBuilt s n = true →
      ∃ t rs, runFor ws.length s = .next t ∧
        t.port.rsp = s.port.rsp ++ rs ++
          [0x0000#16 ++ update (readCrc s c) (tableAt s (readTref s c)) bytes] ∧
        rs = 0x20000000#32 :: List.replicate bytes.length 0x00000001#32 ∧ readTref t c = readTref s c)

/-- R178: over a table that is there, the SUM16 that ends `CHECKSUM d<c>, <tab>, a ++ b` and the SUM16 that ends
`NEW d<c'>, <tab>` ; `WRITES d<c'>, a` ; `WRITES d<c'>, b` ; `SUM16 d<c'>` answer the same. -/
def Obligations.OneShotAgreesWithIncremental : Prop :=
  ∀ (s : State) (c c' : Ctx) (n : TabNo) (a b : List Byte) (ws ws' : List Word), notBuilt s n = false →
    Assembler.assemble (.checksum c.val n.toNat ((a ++ b).map BitVec.toNat)) = some ws →
    Assembler.assembleAll [.new c'.val n.toNat, .writes c'.val (a.map BitVec.toNat),
      .writes c'.val (b.map BitVec.toNat), .sum16 c'.val] = some ws' →
    ∃ t t' r, runFor ws.length { s with port := { s.port with cmd := asInputs ws } } = .next t ∧
      runFor ws'.length { s with port := { s.port with cmd := asInputs ws' } } = .next t' ∧
      t.port.rsp.getLast? = some r ∧ t'.port.rsp.getLast? = some r ∧ r.extractLsb' 28 4 = 0#4
end

