-- ==== Sys2Proof/Laws/Decode.lean ====
section
/-! SUPPORT. The command word: each field read back from a word built of fields, and the masks of R74 taken
field by field. -/

namespace Sys2Proof

/-! ## The fields of a word built by `commandWord` (30_encoding.md R71) -/

@[simp] theorem argField_commandWord (o : BitVec 4) (c t : BitVec 2) (a : U16) :
    argField (commandWord o c t a) = a :=
  BitVec.extractLsb'_append_eq_right (a := o ++ c ++ t ++ 0x00#8) (b := a)

@[simp] theorem opField_commandWord (o : BitVec 4) (c t : BitVec 2) (a : U16) :
    opField (commandWord o c t a) = o := by
  unfold opField commandWord
  rw [BitVec.extractLsb'_append_eq_of_le (by omega), BitVec.extractLsb'_append_eq_of_le (by omega),
    BitVec.extractLsb'_append_eq_of_le (by omega)]
  exact BitVec.extractLsb'_append_eq_left

@[simp] theorem ctxField_commandWord (o : BitVec 4) (c t : BitVec 2) (a : U16) :
    ctxField (commandWord o c t a) = c := by
  unfold ctxField commandWord
  rw [BitVec.extractLsb'_append_eq_of_le (by omega), BitVec.extractLsb'_append_eq_of_le (by omega),
    BitVec.extractLsb'_append_eq_of_le (by omega)]
  exact BitVec.extractLsb'_append_eq_right

@[simp] theorem tselField_commandWord (o : BitVec 4) (c t : BitVec 2) (a : U16) :
    tselField (commandWord o c t a) = t := by
  unfold tselField commandWord
  rw [BitVec.extractLsb'_append_eq_of_le (by omega), BitVec.extractLsb'_append_eq_of_le (by omega)]
  exact BitVec.extractLsb'_append_eq_right

@[simp] theorem rsvField_commandWord (o : BitVec 4) (c t : BitVec 2) (a : U16) :
    rsvField (commandWord o c t a) = 0x00#8 := by
  unfold rsvField commandWord
  rw [BitVec.extractLsb'_append_eq_of_le (by omega)]
  exact BitVec.extractLsb'_append_eq_right

/-- A word is its five fields, most significant first. -/
theorem fields_append (w : Word) :
    (opField w ++ ctxField w ++ tselField w ++ rsvField w ++ argField w : BitVec 32) = w := by
  unfold opField ctxField tselField rsvField argField
  rw [BitVec.extractLsb'_append_extractLsb'_eq_extractLsb' (by omega),
    BitVec.extractLsb'_append_extractLsb'_eq_extractLsb' (by omega),
    BitVec.extractLsb'_append_extractLsb'_eq_extractLsb' (by omega),
    BitVec.extractLsb'_append_extractLsb'_eq_extractLsb' (by omega)]
  exact BitVec.extractLsb'_eq_self

/-- A word with `RSV` = 0x00 is the command word of its other fields. -/
theorem commandWord_fields (w : Word) (h : rsvField w = 0x00#8) :
    commandWord (opField w) (ctxField w) (tselField w) (argField w) = w := by
  rw [commandWord, ← h]
  exact fields_append w

/-! ## The masks of R74 -/

/-- A mask applied to a command word acts field by field. -/
theorem commandWord_and (o : BitVec 4) (c t : BitVec 2) (a : U16) (m : Word) :
    commandWord o c t a &&& m =
      commandWord (o &&& opField m) (c &&& ctxField m) (t &&& tselField m) (a &&& argField m) := by
  rw [← fields_append m]
  show (o ++ c ++ t ++ 0x00#8 ++ a) &&& (opField m ++ ctxField m ++ tselField m ++ rsvField m ++ argField m) = _
  rw [BitVec.and_append, BitVec.and_append, BitVec.and_append, BitVec.and_append, BitVec.zero_and, fields_append]
  rfl

/-- `ARG[15:8]` of a byte operand is 0. -/
theorem byteArg_and_high (b : Byte) : byteArg b &&& 0xFF00#16 = 0#16 := by
  show ((0x00#8 ++ b : BitVec (8 + 8)) &&& (0xFF#8 ++ 0x00#8)) = _
  rw [BitVec.and_append, BitVec.zero_and, BitVec.and_zero]
  rfl

/-- `TSEL[1]` of a destination slot is 1. -/
theorem slotBits_and_high (k : Slot) : slotBits k &&& 2#2 = 2#2 := by
  revert k; decide

end Sys2Proof
end

