-- ==== Sys2Proof/Laws/Memory.lean ====
section
/-! SUPPORT. The table space: a read after a write, the canonical form kept by every operation, equal reads
mean equal lists, and the one-operation fill is the loop of 40_table_builder.md R105. -/

namespace Sys2Proof.Machine

/-! ## Entry addresses (20_memory.md R50) -/

theorem entryAddr_toNat (t : TabNo) (i : Byte) : (entryAddr t i).toNat = 256 * t.toNat + i.toNat := by
  have h := i.isLt
  simp only [entryAddr, BitVec.toNat_append]
  rw [← Nat.shiftLeft_add_eq_or_of_lt h, Nat.shiftLeft_eq]
  omega

theorem addrTab_toNat (a : BitVec 10) : (addrTab a).toNat = a.toNat / 256 := by
  have h := a.isLt
  simp [addrTab, BitVec.extractLsb'_toNat, Nat.shiftRight_eq_div_pow]
  omega

theorem addrIndex_toNat (a : BitVec 10) : (addrIndex a).toNat = a.toNat % 256 := by
  simp [addrIndex, BitVec.extractLsb'_toNat]

theorem entryAddr_eq_iff (t : TabNo) (i : Byte) (a : BitVec 10) :
    entryAddr t i = a ↔ addrTab a = t ∧ addrIndex a = i := by
  have h := i.isLt
  simp only [← BitVec.toNat_inj, entryAddr_toNat, addrTab_toNat, addrIndex_toNat]
  omega

@[simp] theorem addrTab_entryAddr (t : TabNo) (i : Byte) : addrTab (entryAddr t i) = t :=
  ((entryAddr_eq_iff t i _).1 rfl).1

@[simp] theorem addrIndex_entryAddr (t : TabNo) (i : Byte) : addrIndex (entryAddr t i) = i :=
  ((entryAddr_eq_iff t i _).1 rfl).2

@[simp] theorem entryAddr_parts (a : BitVec 10) : entryAddr (addrTab a) (addrIndex a) = a :=
  (entryAddr_eq_iff _ _ _).2 ⟨rfl, rfl⟩

theorem mem_byteValues (i : Byte) : i ∈ byteValues := by
  refine List.mem_map.2 ⟨i.toNat, List.mem_range.2 i.isLt, ?_⟩
  simp

theorem byteValues_rising : byteValues.Pairwise (fun i j => i.toNat < j.toNat) := by
  refine List.Pairwise.map _ (R := fun a b => a < b ∧ b < 256) ?_ ?_
  · intro a b h
    simp only [BitVec.toNat_ofNat]
    omega
  · exact List.pairwise_lt_range.imp_of_mem fun _ hb h => ⟨h, List.mem_range.1 hb⟩

namespace Memory

/-! ## What is listed after each operation -/

theorem listed_insert (m : Memory) (a b : Nat) (v : U16) :
    listed (insert m a v) b = if b = a then some v else listed m b := by
  induction m with
  | nil => rfl
  | cons c m ih =>
    obtain ⟨x, u⟩ := c
    simp only [insert]
    split
    · simp [listed]
    · split
      · subst_vars; simp [listed]; grind
      · simp only [listed, ih]; grind

theorem listed_append (m n : Memory) (a : Nat) : listed (m ++ n) a = (listed m a).or (listed n a) := by
  induction m with
  | nil => simp [listed]
  | cons c m ih => simp only [List.cons_append, listed, ih]; split <;> simp

theorem listed_filter (m : Memory) (p : Nat → Bool) (a : Nat) :
    listed (m.filter fun c => p c.1) a = if p a then listed m a else none := by
  induction m with
  | nil => simp [listed]
  | cons c m ih => simp only [List.filter_cons, listed]; grind [listed]

theorem listed_segment (t : TabNo) (T : Table) (a : BitVec 10) :
    listed (segment t T) a.toNat =
      if addrTab a = t ∧ unlisted a.toNat ≠ some (T (addrIndex a)) then some (T (addrIndex a)) else none := by
  have key : ∀ L : List Byte, listed (L.filterMap fun i =>
      if unlisted (entryAddr t i).toNat = some (T i) then none else some ((entryAddr t i).toNat, T i)) a.toNat =
      if addrIndex a ∈ L ∧ addrTab a = t ∧ unlisted a.toNat ≠ some (T (addrIndex a))
        then some (T (addrIndex a)) else none := by
    intro L
    induction L with
    | nil => simp [listed]
    | cons i L ih =>
      by_cases hi : entryAddr t i = a
      · subst hi
        by_cases hu : unlisted (entryAddr t i).toNat = some (T i)
        · simp [hu, ih]
        · simp [hu, listed]
      · have hne : ¬ a.toNat = (entryAddr t i).toNat := fun h => hi (BitVec.toNat_inj.1 h.symm)
        have hp : ¬ (addrTab a = t ∧ addrIndex a = i) := fun h => hi ((entryAddr_eq_iff t i a).2 h)
        rw [List.filterMap_cons]
        split
        · rw [ih]; grind
        · rename_i h
          split at h
          · exact absurd h (by simp)
          · cases h
            simp only [listed, hne, if_false, ih]
            grind
  simpa [segment, mem_byteValues] using key byteValues

/-! ## The canonical form -/

/-- Above a bound where one is given. -/
abbrev Above (lo : Option Nat) (m : Memory) : Prop := ∀ x, lo = some x → ∀ c ∈ m, x < c.1

theorem rising_iff (m : Memory) (lo : Option Nat) :
    rising lo m = true ↔ Above lo m ∧ m.Pairwise (fun c d => c.1 < d.1) := by
  induction m generalizing lo with
  | nil => simp [rising, Above]
  | cons c m ih =>
    obtain ⟨a, v⟩ := c
    cases lo with
    | none => simp [rising, ih, Above]
    | some x =>
      simp only [rising, Bool.and_eq_true, decide_eq_true_eq, ih, Above, List.pairwise_cons, Option.some.injEq,
        forall_eq', List.mem_cons, forall_eq_or_imp]
      constructor
      · rintro ⟨h, h1, h2⟩
        exact ⟨⟨h, fun d hd => h.trans (h1 d hd)⟩, h1, h2⟩
      · rintro ⟨⟨h, -⟩, h1, h2⟩
        exact ⟨h, h1, h2⟩

theorem wf_iff (m : Memory) :
    m.wf = true ↔ m.Pairwise (fun c d => c.1 < d.1) ∧ ∀ c ∈ m, cellOk c = true := by
  simp [wf, rising_iff, Above]

/-- In a rising list what is listed is what is a member. -/
theorem listed_eq_some {m : Memory} (h : m.Pairwise (fun c d => c.1 < d.1)) (a : Nat) (v : U16) :
    listed m a = some v ↔ (a, v) ∈ m := by
  induction m with
  | nil => simp [listed]
  | cons c m ih =>
    obtain ⟨x, u⟩ := c
    obtain ⟨h1, h2⟩ := List.pairwise_cons.1 h
    simp only [listed, List.mem_cons, Prod.mk.injEq]
    split
    · subst_vars
      constructor
      · intro e; cases e; exact .inl ⟨rfl, rfl⟩
      · rintro (⟨-, rfl⟩ | hm)
        · rfl
        · exact absurd (h1 _ hm) (lt_irrefl _)
    · rw [ih h2]; grind

theorem mem_insert {m : Memory} {a : Nat} {v : U16} {c : Nat × U16} (h : c ∈ insert m a v) :
    c = (a, v) ∨ c ∈ m := by
  induction m with
  | nil => simpa [insert] using h
  | cons d m ih => simp only [insert] at h; grind

theorem mem_erase {m : Memory} {a : Nat} {c : Nat × U16} (h : c ∈ erase m a) : c ∈ m := by
  induction m with
  | nil => simp [erase] at h
  | cons d m ih => simp only [erase] at h; grind

theorem insert_rising {m : Memory} (h : m.Pairwise (fun c d => c.1 < d.1)) (a : Nat) (v : U16) :
    (insert m a v).Pairwise (fun c d => c.1 < d.1) := by
  induction m with
  | nil => simp [insert]
  | cons d m ih =>
    obtain ⟨x, u⟩ := d
    obtain ⟨h1, h2⟩ := List.pairwise_cons.1 h
    simp only [insert]
    split
    · rename_i hlt
      refine List.pairwise_cons.2 ⟨fun c hc => ?_, h⟩
      rcases List.mem_cons.1 hc with rfl | hc
      · exact hlt
      · exact hlt.trans (h1 c hc)
    · split
      · subst_vars
        exact List.pairwise_cons.2 ⟨h1, h2⟩
      · refine List.pairwise_cons.2 ⟨fun c hc => ?_, ih h2⟩
        rcases mem_insert hc with rfl | hc
        · show x < a; omega
        · exact h1 c hc

theorem erase_rising {m : Memory} (h : m.Pairwise (fun c d => c.1 < d.1)) (a : Nat) :
    (erase m a).Pairwise (fun c d => c.1 < d.1) := by
  induction m with
  | nil => simp [erase]
  | cons d m ih =>
    obtain ⟨h1, h2⟩ := List.pairwise_cons.1 h
    simp only [erase]
    split
    · exact h2
    · exact List.pairwise_cons.2 ⟨fun c hc => h1 c (mem_erase hc), ih h2⟩

theorem listed_erase {m : Memory} (h : m.Pairwise (fun c d => c.1 < d.1)) (a b : Nat) :
    listed (erase m a) b = if b = a then none else listed m b := by
  induction m with
  | nil => simp [erase, listed]
  | cons d m ih =>
    obtain ⟨x, u⟩ := d
    obtain ⟨h1, h2⟩ := List.pairwise_cons.1 h
    simp only [erase]
    split
    · subst_vars
      split
      · subst_vars
        cases hm : listed m x with
        | none => rfl
        | some w => exact absurd (h1 _ ((listed_eq_some h2 x w).1 hm)) (lt_irrefl _)
      · simp [listed, *]
    · simp only [listed, ih h2]; grind

/-- A write keeps the canonical form. -/
theorem wf_write {m : Memory} (h : m.wf = true) (a : BitVec 10) (v : U16) : (m.write a v).wf = true := by
  obtain ⟨hr, hc⟩ := (wf_iff m).1 h
  unfold write
  split
  · exact (wf_iff _).2 ⟨erase_rising hr _, fun c hm => hc c (mem_erase hm)⟩
  · rename_i hu
    refine (wf_iff _).2 ⟨insert_rising hr _ _, fun c hm => ?_⟩
    rcases mem_insert hm with rfl | hm
    · have := a.isLt
      simp [cellOk, hu]
      omega
    · exact hc c hm

/-- A read after a write: the value at the address written, and every other address as before. -/
theorem read_write {m : Memory} (h : m.wf = true) (a b : BitVec 10) (v : U16) :
    (m.write a v).read b = if b = a then some v else m.read b := by
  obtain ⟨hr, -⟩ := (wf_iff m).1 h
  by_cases hu : unlisted a.toNat = some v
  · simp only [write, if_pos hu, read, listed_erase hr, BitVec.toNat_inj]
    by_cases hb : b = a
    · subst hb; simp [hu]
    · simp [hb]
  · simp only [write, if_neg hu, read, listed_insert, BitVec.toNat_inj]
    by_cases hb : b = a
    · simp [hb]
    · simp [hb]

/-! ## Filling one table -/

theorem mem_segment {t : TabNo} {T : Table} {c : Nat × U16} (h : c ∈ segment t T) :
    cellOk c = true ∧ 256 * t.toNat ≤ c.1 ∧ c.1 < 256 * t.toNat + 256 := by
  obtain ⟨i, -, hi⟩ := List.mem_filterMap.1 h
  split at hi
  · cases hi
  · rename_i hu
    cases hi
    have h1 := i.isLt
    have h2 := (entryAddr t i).isLt
    have h3 := entryAddr_toNat t i
    refine ⟨?_, by dsimp only; omega, by dsimp only; omega⟩
    simp only [cellOk, Bool.and_eq_true, decide_eq_true_eq, bne_iff_ne, ne_eq]
    exact ⟨h2, hu⟩

theorem segment_rising (t : TabNo) (T : Table) : (segment t T).Pairwise (fun c d => c.1 < d.1) := by
  refine List.Pairwise.filterMap _ ?_ byteValues_rising
  intro i j hij c hc d hd
  split at hc <;> split at hd <;> simp_all
  subst_vars
  simp only [entryAddr_toNat]
  omega

/-- Filling a table keeps the canonical form. -/
theorem wf_fill {m : Memory} (h : m.wf = true) (t : TabNo) (T : Table) : (m.fill t T).wf = true := by
  obtain ⟨hr, hc⟩ := (wf_iff m).1 h
  refine (wf_iff _).2 ⟨?_, fun c hm => ?_⟩
  · refine List.pairwise_append.2 ⟨List.pairwise_append.2 ⟨hr.filter _, segment_rising t T, ?_⟩, hr.filter _, ?_⟩
    · intro c h1 d h2
      have h3 := (mem_segment h2).2
      simp only [List.mem_filter, decide_eq_true_eq] at h1
      omega
    · intro c h1 d h2
      simp only [List.mem_filter, decide_eq_true_eq] at h2
      rcases List.mem_append.1 h1 with h1 | h1
      · simp only [List.mem_filter, decide_eq_true_eq] at h1
        omega
      · have h3 := (mem_segment h1).2
        omega
  · rcases List.mem_append.1 hm with hm | hm
    · rcases List.mem_append.1 hm with hm | hm
      · exact hc c (List.mem_filter.1 hm).1
      · exact (mem_segment hm).1
    · exact hc c (List.mem_filter.1 hm).1

/-- A read after a fill: the table's value in the table filled, and every other address as before. -/
theorem read_fill (m : Memory) (t : TabNo) (T : Table) (a : BitVec 10) :
    (m.fill t T).read a = if addrTab a = t then some (T (addrIndex a)) else m.read a := by
  have h1 := addrTab_toNat a
  have hlo := listed_filter m (fun x => decide (x < 256 * t.toNat)) a.toNat
  have hhi := listed_filter m (fun x => decide (256 * t.toNat + 256 ≤ x)) a.toNat
  simp only [fill, read, listed_append, listed_segment, hlo, hhi]
  by_cases ht : addrTab a = t
  · have ht' : (addrTab a).toNat = t.toNat := by rw [ht]
    have hl : ¬ a.toNat < 256 * t.toNat := by omega
    have hh : ¬ 256 * t.toNat + 256 ≤ a.toNat := by omega
    by_cases hu : unlisted a.toNat = some (T (addrIndex a))
    · simp [ht, hl, hh, hu]
    · simp [ht, hl, hh, hu]
  · have ht' : (addrTab a).toNat ≠ t.toNat := fun e => ht (BitVec.toNat_inj.1 e)
    by_cases hl : a.toNat < 256 * t.toNat
    · have hh : ¬ 256 * t.toNat + 256 ≤ a.toNat := by omega
      simp [ht, hl, hh]
    · have hh : 256 * t.toNat + 256 ≤ a.toNat := by omega
      simp [ht, hl, hh]

/-! ## Equal table spaces are equal lists -/

theorem eq_of_listed {m n : Memory} (hm : m.Pairwise (fun c d => c.1 < d.1))
    (hn : n.Pairwise (fun c d => c.1 < d.1)) (h : ∀ a, listed m a = listed n a) : m = n := by
  have hmem : ∀ c, c ∈ m ↔ c ∈ n := fun c => by
    rw [← listed_eq_some hm c.1 c.2, ← listed_eq_some hn c.1 c.2, h]
  have hp : m.Perm n := (List.perm_ext_iff_of_nodup
    (hm.imp fun h e => by subst e; exact lt_irrefl _ h)
    (hn.imp fun h e => by subst e; exact lt_irrefl _ h)).2 hmem
  exact hp.eq_of_pairwise (fun c d _ _ h1 h2 => absurd (h1.trans h2) (lt_irrefl _)) hm hn

theorem listed_eq_of_read {m n : Memory} (hm : m.wf = true)
    (h : ∀ a, m.read a = n.read a) (a : Nat) (v : U16) (hv : listed m a = some v) : listed n a = some v := by
  obtain ⟨hr, hc⟩ := (wf_iff m).1 hm
  have hok := hc _ ((listed_eq_some hr a v).1 hv)
  simp only [cellOk, Bool.and_eq_true, decide_eq_true_eq, bne_iff_ne, ne_eq] at hok
  have hread := h (BitVec.ofNat 10 a)
  have ha : (BitVec.ofNat 10 a).toNat = a := by simp; omega
  simp only [read, ha, hv] at hread
  cases hl : listed n a with
  | none => rw [hl] at hread; exact absurd hread.symm hok.2
  | some w => rw [hl] at hread; exact hread.symm

/-- Two table spaces in canonical form that read the same everywhere are the same list. -/
theorem eq_of_read {m n : Memory} (hm : m.wf = true) (hn : n.wf = true)
    (h : ∀ a, m.read a = n.read a) : m = n := by
  refine eq_of_listed ((wf_iff m).1 hm).1 ((wf_iff n).1 hn).1 fun a => ?_
  cases h1 : listed m a with
  | some v => exact (listed_eq_of_read hm h a v h1).symm
  | none =>
    cases h2 : listed n a with
    | none => rfl
    | some w => exact absurd (listed_eq_of_read hn (fun a => (h a).symm) a w h2) (by simp [h1])

/-- The loop of R105: one `write` for each byte value of a list. -/
theorem writes_spec {m : Memory} (h : m.wf = true) (t : TabNo) (T : Table) (L : List Byte) :
    (L.foldl (fun m i => m.write (entryAddr t i) (T i)) m).wf = true ∧
    ∀ a, (L.foldl (fun m i => m.write (entryAddr t i) (T i)) m).read a =
      if addrTab a = t ∧ addrIndex a ∈ L then some (T (addrIndex a)) else m.read a := by
  induction L generalizing m with
  | nil => simp [h]
  | cons i L ih =>
    obtain ⟨h1, h2⟩ := ih (wf_write h (entryAddr t i) (T i))
    refine ⟨h1, fun a => ?_⟩
    simp only [List.foldl_cons, h2, read_write h, eq_comm (a := a), entryAddr_eq_iff, List.mem_cons]
    grind

/-- The one-operation fill is the loop of R105: `TabWrite(t, i, T[i])` for `i` = 0 .. 255. -/
theorem fill_eq_writes {m : Memory} (h : m.wf = true) (t : TabNo) (T : Table) :
    m.fill t T = byteValues.foldl (fun m i => m.write (entryAddr t i) (T i)) m := by
  obtain ⟨h1, h2⟩ := writes_spec h t T byteValues
  refine eq_of_read (wf_fill h t T) h1 fun a => ?_
  simp [read_fill, h2, mem_byteValues]

end Memory

end Sys2Proof.Machine
end

