-- ==== Sys2Proof/Laws/State.lean ====
section
/-! SUPPORT. One lemma per field per update of the state, and one per register read after each update, so that
no proof unfolds a record update. -/

namespace Sys2Proof.Machine

/-! ## Registers after a register write -/

@[simp] theorem readCrc_writeCrc (s : State) (c c' : Ctx) (v : U16) :
    readCrc (writeCrc s c v) c' = if c = c' then v else readCrc s c' := by
  simp [readCrc, writeCrc, Vector.getElem_set, Fin.ext_iff]

@[simp] theorem readCrc_writeTref (s : State) (c c' : Ctx) (t : TabNo) :
    readCrc (writeTref s c t) c' = readCrc s c' := rfl

@[simp] theorem readCrc_setUv (s : State) (k : Slot) (c : Ctx) : readCrc (setUv s k) c = readCrc s c := rfl

@[simp] theorem readCrc_writeTable (s : State) (t : TabNo) (T : Table) (c : Ctx) :
    readCrc (writeTable s t T) c = readCrc s c := rfl

@[simp] theorem readCrc_respond (st : Status) (v : U16) (bs : List Byte) (s : State) (c : Ctx) :
    readCrc (respond st v bs s) c = readCrc s c := rfl

@[simp] theorem readTref_writeTref (s : State) (c c' : Ctx) (t : TabNo) :
    readTref (writeTref s c t) c' = if c = c' then t else readTref s c' := by
  simp [readTref, writeTref, Vector.getElem_set, Fin.ext_iff]

@[simp] theorem readTref_writeCrc (s : State) (c c' : Ctx) (v : U16) :
    readTref (writeCrc s c v) c' = readTref s c' := rfl

@[simp] theorem readTref_setUv (s : State) (k : Slot) (c : Ctx) : readTref (setUv s k) c = readTref s c := rfl

@[simp] theorem readTref_writeTable (s : State) (t : TabNo) (T : Table) (c : Ctx) :
    readTref (writeTable s t T) c = readTref s c := rfl

@[simp] theorem readTref_respond (st : Status) (v : U16) (bs : List Byte) (s : State) (c : Ctx) :
    readTref (respond st v bs s) c = readTref s c := rfl

@[simp] theorem readUv_setUv (s : State) (k k' : Slot) :
    readUv (setUv s k) k' = if k = k' then true else readUv s k' := by
  simp [readUv, setUv, Vector.getElem_set, Fin.ext_iff]

@[simp] theorem readUv_writeCrc (s : State) (c : Ctx) (v : U16) (k : Slot) :
    readUv (writeCrc s c v) k = readUv s k := rfl

@[simp] theorem readUv_writeTref (s : State) (c : Ctx) (t : TabNo) (k : Slot) :
    readUv (writeTref s c t) k = readUv s k := rfl

@[simp] theorem readUv_writeTable (s : State) (t : TabNo) (T : Table) (k : Slot) :
    readUv (writeTable s t T) k = readUv s k := rfl

@[simp] theorem readUv_respond (st : Status) (v : U16) (bs : List Byte) (s : State) (k : Slot) :
    readUv (respond st v bs s) k = readUv s k := rfl

/-! ## The table space after each update -/

@[simp] theorem writeTable_tab (s : State) (t : TabNo) (T : Table) :
    (writeTable s t T).block.tab = s.block.tab.fill t T := rfl

@[simp] theorem writeCrc_tab (s : State) (c : Ctx) (v : U16) : (writeCrc s c v).block.tab = s.block.tab := rfl

@[simp] theorem writeTref_tab (s : State) (c : Ctx) (t : TabNo) : (writeTref s c t).block.tab = s.block.tab := rfl

@[simp] theorem setUv_tab (s : State) (k : Slot) : (setUv s k).block.tab = s.block.tab := rfl

/-! ## The ports and the reset count after each update -/

@[simp] theorem writeCrc_port (s : State) (c : Ctx) (v : U16) : (writeCrc s c v).port = s.port := rfl

@[simp] theorem writeTref_port (s : State) (c : Ctx) (t : TabNo) : (writeTref s c t).port = s.port := rfl

@[simp] theorem setUv_port (s : State) (k : Slot) : (setUv s k).port = s.port := rfl

@[simp] theorem writeTable_port (s : State) (t : TabNo) (T : Table) : (writeTable s t T).port = s.port := rfl

@[simp] theorem writeCrc_resets (s : State) (c : Ctx) (v : U16) : (writeCrc s c v).resets = s.resets := rfl

@[simp] theorem writeTref_resets (s : State) (c : Ctx) (t : TabNo) : (writeTref s c t).resets = s.resets := rfl

@[simp] theorem setUv_resets (s : State) (k : Slot) : (setUv s k).resets = s.resets := rfl

@[simp] theorem writeTable_resets (s : State) (t : TabNo) (T : Table) : (writeTable s t T).resets = s.resets := rfl

/-! ## A response -/

@[simp] theorem respond_block (st : Status) (v : U16) (bs : List Byte) (s : State) :
    (respond st v bs s).block = s.block := rfl

@[simp] theorem respond_rsp (st : Status) (v : U16) (bs : List Byte) (s : State) :
    (respond st v bs s).port.rsp = s.port.rsp ++ [responseWord st v] := rfl

@[simp] theorem respond_obyte (st : Status) (v : U16) (bs : List Byte) (s : State) :
    (respond st v bs s).port.obyte = s.port.obyte ++ bs := rfl

@[simp] theorem respond_cmd (st : Status) (v : U16) (bs : List Byte) (s : State) :
    (respond st v bs s).port.cmd = s.port.cmd := rfl

@[simp] theorem respond_resets (st : Status) (v : U16) (bs : List Byte) (s : State) :
    (respond st v bs s).resets = s.resets := rfl

/-! ## The reset of the block -/

@[simp] theorem resetBlock_block (s : State) : (resetBlock s).block = Block.reset := rfl

@[simp] theorem resetBlock_port (s : State) : (resetBlock s).port = s.port := rfl

@[simp] theorem resetBlock_resets (s : State) : (resetBlock s).resets = s.resets + 1 := rfl

/-! ## Taking an input -/

theorem takeInput_nil {s : State} (h : s.port.cmd = []) : takeInput s = none := by
  simp [takeInput, h]

theorem takeInput_cons {s : State} {e : Input} {rest : List Input} (h : s.port.cmd = e :: rest) :
    takeInput s = some (e, { s with port := { s.port with cmd := rest } }) := by
  simp [takeInput, h]

/-- What the checks read depends on the block alone. -/
theorem notBuilt_congr {s t : State} (h : t.block = s.block) (n : TabNo) : notBuilt t n = notBuilt s n := by
  simp [notBuilt, readUv, h]

end Sys2Proof.Machine
end

