-- ==== Sys2Proof/Laws/Ops.lean ====
section
/-! SUPPORT. For each shared operation of Machine/Ops.lean and Machine/Operands.lean, once, what it can do. -/

namespace Sys2Proof.Machine

/-! ## Table numbers and slots -/

@[simp] theorem userSlot_slotTab (k : Slot) : userSlot (slotTab k) = some k := by
  revert k; decide

theorem userSlot_eq_some {t : TabNo} {k : Slot} : userSlot t = some k ↔ t = slotTab k := by
  revert t k; decide

theorem userSlot_eq_none {t : TabNo} : userSlot t = none ↔ t = TabNo.ansi ∨ t = TabNo.ccitt := by
  revert t; decide

theorem slotTab_toNat (k : Slot) : (slotTab k).toNat = 2 + k.val := by
  revert k; decide

theorem slotTab_inj {k l : Slot} : slotTab k = slotTab l ↔ k = l := by
  revert k l; decide

/-- A table number is one of the cached tables or a user slot's. -/
theorem tabNo_cases (t : TabNo) : t = TabNo.ansi ∨ t = TabNo.ccitt ∨ ∃ k, t = slotTab k := by
  revert t; decide

/-! ## The two checks (60_exceptions.md R190) -/

@[simp] theorem notBuilt_slotTab (s : State) (k : Slot) : notBuilt s (slotTab k) = !readUv s k := by
  simp [notBuilt]

/-- NOTABLE is a matter of an unbuilt user slot alone. -/
theorem notBuilt_iff (s : State) (t : TabNo) :
    notBuilt s t = true ↔ ∃ k, t = slotTab k ∧ readUv s k = false := by
  cases h : userSlot t with
  | none =>
    simp only [notBuilt, h, Bool.false_eq_true, false_iff, not_exists, not_and]
    intro k hk
    simp [hk] at h
  | some k =>
    obtain rfl := userSlot_eq_some.1 h
    simp [slotTab_inj]

/-- INUSE is a matter of some context that holds the slot's table number. -/
theorem inUse_iff (s : State) (k : Slot) : inUse s k = true ↔ ∃ c, readTref s c = slotTab k := by
  simp only [inUse, Bool.or_eq_true, beq_iff_eq, Fin.exists_fin_succ, Fin.exists_fin_zero]
  simp [or_assoc]

/-! ## The table space -/

/-- A read of the store after a table is written. -/
theorem read_writeTable (s : State) (t : TabNo) (T : Table) (a : BitVec 10) :
    (writeTable s t T).block.tab.read a = if addrTab a = t then some (T (addrIndex a)) else s.block.tab.read a :=
  Memory.read_fill _ _ _ _

/-- Where the store holds a value a read gives it, whatever the free value is. -/
theorem tabRead_of_read {s : State} {t : TabNo} {i : Byte} {v : U16}
    (h : s.block.tab.read (entryAddr t i) = some v) : tabRead s t i = v := by
  simp [tabRead, h]

/-- A table read depends on the store and the count of resets alone. -/
theorem tabRead_congr {s t : State} (hr : t.resets = s.resets) (n : TabNo) (i : Byte)
    (h : t.block.tab.read (entryAddr n i) = s.block.tab.read (entryAddr n i)) : tabRead t n i = tabRead s n i := by
  simp [tabRead, h, hr]

/-! ## The build (40_table_builder.md R105) -/

theorem buildInto_inuse {s : State} {k : Slot} (p : U16) (h : inUse s k = true) :
    buildInto k p s = refuse .inuse s := by
  simp [buildInto, h]

theorem buildInto_free {s : State} {k : Slot} (p : U16) (h : inUse s k = false) :
    buildInto k p s =
      respond .ok ((slotTab k).setWidth 16) [] (setUv (writeTable s (slotTab k) (buildTable p)) k) := by
  simp [buildInto, h]

end Sys2Proof.Machine
end

