-- ==== Sys2Proof/Laws/PerInstr.lean ====
section
/-! SUPPORT. The family EncodeInRow, stated of every operation as syntax: its word is in its own row of the
opcode map (30_encoding.md R74). -/

namespace Sys2Proof.Laws.EncodeInRow

/-- The mnemonic of an operation. -/
def mnemonicOf : Instr → Mnemonic
  | .build _ _ => .build
  | .mktab _ _ => .mktab
  | .tread _ _ => .tread
  | .new _ _ => .new
  | .reset _ => .reset
  | .write _ _ => .write
  | .sum16 _ => .sum16
  | .sum _ => .sum
  | .blksz _ => .blksz
  | .size _ => .size

/-- The operation's word matches a row of R74 with the operation's mnemonic. -/
def Statement (i : Instr) : Prop :=
  ∃ r ∈ opcodeRows, r.mnemonic = mnemonicOf i ∧ r.matches (encode i) = true

theorem build (k : Slot) (p : U16) : Statement (.build k p) := by
  refine ⟨⟨.build, 0x12000000#32, 0xFEFF0000#32⟩, by decide, rfl, ?_⟩
  simp [Row.matches, encode, commandWord_and, opField, ctxField, tselField, argField, slotBits_and_high]
  decide

theorem mktab (k : Slot) (p : U16) : Statement (.mktab k p) := by
  refine ⟨⟨.mktab, 0x22000000#32, 0xFEFF0000#32⟩, by decide, rfl, ?_⟩
  simp [Row.matches, encode, commandWord_and, opField, ctxField, tselField, argField, slotBits_and_high]
  decide

theorem tread (t : TabNo) (i : Byte) : Statement (.tread t i) := by
  refine ⟨⟨.tread, 0x30000000#32, 0xFCFFFF00#32⟩, by decide, rfl, ?_⟩
  simp [Row.matches, encode, commandWord_and, opField, ctxField, tselField, argField, byteArg_and_high]
  decide

theorem new (c : Ctx) (t : TabNo) : Statement (.new c t) := by
  refine ⟨⟨.new, 0x40000000#32, 0xF0FFFFFF#32⟩, by decide, rfl, ?_⟩
  simp [Row.matches, encode, commandWord_and, opField, ctxField, tselField, argField]
  decide

theorem reset (c : Ctx) : Statement (.reset c) := by
  refine ⟨⟨.reset, 0x50000000#32, 0xF3FFFFFF#32⟩, by decide, rfl, ?_⟩
  simp [Row.matches, encode, commandWord_and, opField, ctxField, tselField, argField]
  decide

theorem write (c : Ctx) (b : Byte) : Statement (.write c b) := by
  refine ⟨⟨.write, 0x60000000#32, 0xF3FFFF00#32⟩, by decide, rfl, ?_⟩
  simp [Row.matches, encode, commandWord_and, opField, ctxField, tselField, argField, byteArg_and_high]
  decide

theorem sum16 (c : Ctx) : Statement (.sum16 c) := by
  refine ⟨⟨.sum16, 0x70000000#32, 0xF3FFFFFF#32⟩, by decide, rfl, ?_⟩
  simp [Row.matches, encode, commandWord_and, opField, ctxField, tselField, argField]
  decide

theorem sum (c : Ctx) : Statement (.sum c) := by
  refine ⟨⟨.sum, 0x80000000#32, 0xF3FFFFFF#32⟩, by decide, rfl, ?_⟩
  simp [Row.matches, encode, commandWord_and, opField, ctxField, tselField, argField]
  decide

theorem blksz (c : Ctx) : Statement (.blksz c) := by
  refine ⟨⟨.blksz, 0x90000000#32, 0xF3FFFFFF#32⟩, by decide, rfl, ?_⟩
  simp [Row.matches, encode, commandWord_and, opField, ctxField, tselField, argField]
  decide

theorem size (c : Ctx) : Statement (.size c) := by
  refine ⟨⟨.size, 0xA0000000#32, 0xF3FFFFFF#32⟩, by decide, rfl, ?_⟩
  simp [Row.matches, encode, commandWord_and, opField, ctxField, tselField, argField]
  decide

end Sys2Proof.Laws.EncodeInRow
end

