-- ==== Sys2Proof/Laws/Step.lean ====
section
/-! SUPPORT. What executing an operation and taking a step can do, said once: later proofs cite these and do not
unfold `exec` or `step` again. -/

namespace Sys2Proof.Machine

/-- Everything that executing an operation can do to the block (10_state.md R32): nothing, a build of a free
slot, a new crc of one context, or a fresh digest over a built table. -/
inductive BlockChange (s : State) (b : Block) : Prop where
  | same (h : b = s.block)
  | build (k : Slot) (p : U16) (free : inUse s k = false)
      (h : b = (setUv (writeTable s (slotTab k) (buildTable p)) k).block)
  | crc (c : Ctx) (v : U16) (h : b = (writeCrc s c v).block)
  | fresh (c : Ctx) (n : TabNo) (there : notBuilt s n = false)
      (h : b = (writeTref (writeCrc s c 0x0000#16) c n).block)

/-- The outcome is a next state that answers one word and changes the block in one of those ways. -/
structure Answer (s t : State) : Prop where
  change : BlockChange s t.block
  cmd : t.port.cmd = s.port.cmd
  resets : t.resets = s.resets
  rsp : ∃ r, t.port.rsp = s.port.rsp ++ [r]
  obyte : ∃ bs, t.port.obyte = s.port.obyte ++ bs

theorem answer_respond {s u : State} (st : Status) (v : U16) (bs : List Byte) (hc : BlockChange s u.block)
    (hp : u.port = s.port) (hr : u.resets = s.resets) : Answer s (respond st v bs u) where
  change := hc
  cmd := by simp [hp]
  resets := by simp [hr]
  rsp := ⟨_, by simp [hp]; rfl⟩
  obyte := ⟨_, by simp [hp]; rfl⟩

theorem answer_buildInto (k : Slot) (p : U16) (s : State) : Answer s (buildInto k p s) := by
  cases h : inUse s k with
  | true => rw [buildInto_inuse p h]; exact answer_respond _ _ _ (.same rfl) rfl rfl
  | false => rw [buildInto_free p h]; exact answer_respond _ _ _ (.build k p h rfl) rfl rfl

/-- The inversion of `exec`. -/
theorem exec_answer (i : Instr) (s : State) : ∃ t, exec i s = .next t ∧ Answer s t := by
  cases i with
  | build k p => exact ⟨_, rfl, answer_buildInto k p s⟩
  | mktab k p =>
    simp only [exec, execMktab]
    split
    · exact ⟨_, rfl, answer_respond _ _ _ (.same rfl) rfl rfl⟩
    · split
      · exact ⟨_, rfl, answer_respond _ _ _ (.same rfl) rfl rfl⟩
      · exact ⟨_, rfl, answer_buildInto k p s⟩
  | tread t i =>
    simp only [exec, execTread]
    split <;> exact ⟨_, rfl, answer_respond _ _ _ (.same rfl) rfl rfl⟩
  | new c n =>
    simp only [exec, execNew]
    split
    · exact ⟨_, rfl, answer_respond _ _ _ (.same rfl) rfl rfl⟩
    · rename_i h
      exact ⟨_, rfl, answer_respond _ _ _ (.fresh c n (by simpa using h) rfl) rfl rfl⟩
  | reset c => exact ⟨_, rfl, answer_respond _ _ _ (.crc c _ rfl) rfl rfl⟩
  | write c b => exact ⟨_, rfl, answer_respond _ _ _ (.crc c _ rfl) rfl rfl⟩
  | sum16 c => exact ⟨_, rfl, answer_respond _ _ _ (.same rfl) rfl rfl⟩
  | sum c => exact ⟨_, rfl, answer_respond _ _ _ (.same rfl) rfl rfl⟩
  | blksz c => exact ⟨_, rfl, answer_respond _ _ _ (.same rfl) rfl rfl⟩
  | size c => exact ⟨_, rfl, answer_respond _ _ _ (.same rfl) rfl rfl⟩

/-- The inversion of `execWord`: an ILLEGAL word is answered too. -/
theorem execWord_answer (w : Word) (s : State) : ∃ t, execWord w s = .next t ∧ Answer s t := by
  unfold execWord
  split
  · exact exec_answer _ _
  · exact ⟨_, rfl, answer_respond _ _ _ (.same rfl) rfl rfl⟩

/-- A step with nothing presented. -/
theorem step_nil {s : State} (h : s.port.cmd = []) : step s = .refused .noCommand := by
  simp [step, takeInput_nil h]

/-- A step with a command word presented. -/
theorem step_word {s : State} {w : Word} {rest : List Input} (h : s.port.cmd = .word w :: rest) :
    step s = execWord w { s with port := { s.port with cmd := rest } } := by
  simp [step, takeInput_cons h]

/-- A step with a reset of the block presented. -/
theorem step_blockReset {s : State} {rest : List Input} (h : s.port.cmd = .blockReset :: rest) :
    step s = .next (resetBlock { s with port := { s.port with cmd := rest } }) := by
  simp [step, takeInput_cons h]

end Sys2Proof.Machine
end

