-- ==== Sys2Proof/Laws/Run.lean ====
section
/-! SUPPORT. Runs: one step at a time, and the same as the host's `Host.Core.run`. Also the inversion of `step`. -/

namespace Sys2Proof.Machine

/-- The inversion of `step`: a next state comes of a reset of the block, or of a command word answered. -/
theorem step_cases {s t : State} (h : step s = .next t) :
    (∃ rest, s.port.cmd = .blockReset :: rest ∧ t = resetBlock { s with port := { s.port with cmd := rest } }) ∨
    (∃ w rest, s.port.cmd = .word w :: rest ∧
      execWord w { s with port := { s.port with cmd := rest } } = .next t ∧
      Answer { s with port := { s.port with cmd := rest } } t) := by
  cases hc : s.port.cmd with
  | nil => rw [step_nil hc] at h; cases h
  | cons e rest =>
    cases e with
    | blockReset => rw [step_blockReset hc] at h; cases h; exact .inl ⟨_, rfl, rfl⟩
    | word w =>
      rw [step_word hc] at h
      obtain ⟨u, hu, ha⟩ := execWord_answer w { s with port := { s.port with cmd := rest } }
      rw [hu] at h
      cases h
      exact .inr ⟨w, rest, rfl, hu, ha⟩

@[simp] theorem runFor_zero (s : State) : runFor 0 s = .next s := rfl

theorem runFor_next {n : Nat} {s t : State} (h : step s = .next t) : runFor (n + 1) s = runFor n t := by
  simp [runFor, h]

/-- The first step of a run that ends in a next state. -/
theorem runFor_succ_inv {n : Nat} {s t : State} (h : runFor (n + 1) s = .next t) :
    ∃ u, step s = .next u ∧ runFor n u = .next t := by
  cases hs : step s with
  | next u => exact ⟨u, rfl, by rwa [runFor_next hs] at h⟩
  | fault r => simp [runFor, hs] at h
  | refused r => simp [runFor, hs] at h

/-- A run in two parts. -/
theorem runFor_add {m n : Nat} {s t : State} (h : runFor m s = .next t) : runFor (m + n) s = runFor n t := by
  induction m generalizing s with
  | zero => cases h; rw [Nat.zero_add]
  | succ m ih =>
    obtain ⟨u, hu, ht⟩ := runFor_succ_inv h
    rw [Nat.succ_add, runFor_next hu, ih ht]

/-- One step of a run of the host's interface. -/
theorem coreRun_succ (M : Host.Core) (n : Nat) (s : M.State) :
    M.run (n + 1) s = match M.step s with
      | .next t => M.run n t
      | .fault r => .fault r
      | .refused r => .refused r := rfl

/-- The runs of `Safety` are the runs of the host's interface. -/
theorem runFor_eq_run (n : Nat) (s : State) : runFor n s = Host.Core.run Sys2Proof.core n s := by
  induction n generalizing s with
  | zero => rfl
  | succ n ih =>
    refine Eq.trans ?_ (coreRun_succ Sys2Proof.core n s).symm
    cases hs : step s with
    | next t =>
      have hc : Sys2Proof.core.step s = .next t := hs
      rw [hc]
      exact (runFor_next hs).trans (ih t)
    | fault r =>
      have hc : Sys2Proof.core.step s = .fault r := hs
      rw [hc]
      simp only [runFor, hs]
      rfl
    | refused r =>
      have hc : Sys2Proof.core.step s = .refused r := hs
      rw [hc]
      simp only [runFor, hs]
      rfl

end Sys2Proof.Machine
end

