-- ==== Sys2Proof/Tests/Slice0.lean ====
section
/-! SUPPORT. Tests. Expected values are the spec's: 95_test_vectors.md (V and P ids), 30_encoding.md R80, and the
rules' own examples; none is the model's answer. The last part gives, for each statement that has hypotheses, a
concrete input that meets them together. -/

namespace Sys2Proof.Tests

open Sys2Proof.Machine

/-! ## Helpers -/

/-- The state after words from reset. -/
def after (ws : List Word) : State :=
  match runFor ws.length (started (asInputs ws)) with
  | .next t => t
  | _ => State.reset

/-- The responses to words from reset. -/
def responses (ws : List Word) : List Word := (after ws).port.rsp

/-- A step's next state, for tests that read it. -/
def nextOf (o : Host.Outcome State Fault Refusal) : State :=
  match o with
  | .next t => t
  | _ => State.reset

/-- Slot `u0` built from 0xA001 (95_test_vectors.md V15d). -/
def built : State := after [0x1200A001#32]

/-- As `built`, and context 2 holds `u0` (V15d). -/
def held : State := after [0x1200A001#32, 0x4A000000#32]

/-! ## Decoding: a word of each row, written out from R74 (V50) -/

theorem test_decode_build : decode 0x1300FFFF#32 = .legal (.build 1 0xFFFF#16) := by decide
theorem test_decode_mktab : decode 0x22008005#32 = .legal (.mktab 0 0x8005#16) := by decide
theorem test_decode_tread : decode 0x330000FF#32 = .legal (.tread 3#2 0xFF#8) := by decide
theorem test_decode_new : decode 0x45000000#32 = .legal (.new 1 1#2) := by decide
theorem test_decode_reset : decode 0x5C000000#32 = .legal (.reset 3) := by decide
theorem test_decode_write : decode 0x64000041#32 = .legal (.write 1 0x41#8) := by decide
theorem test_decode_sum16 : decode 0x74000000#32 = .legal (.sum16 1) := by decide
theorem test_decode_sum : decode 0x88000000#32 = .legal (.sum 2) := by decide
theorem test_decode_blksz : decode 0x9C000000#32 = .legal (.blksz 3) := by decide
theorem test_decode_size : decode 0xAC000000#32 = .legal (.size 3) := by decide

/-- One word of each class of R80, from V51. -/
theorem test_decode_illegal : ([0x00000000#32, 0xB0000000#32, 0x70010000#32, 0x16001021#32, 0x10008005#32,
    0x21001021#32, 0x34000000#32, 0x30000100#32, 0x60000141#32, 0x40000001#32, 0x51000000#32,
    0x43000001#32].all fun w => decode w == .illegal) = true := by decide

theorem test_illegal_classes : [IllegalClass.i1.condition 0xB0000000#32, IllegalClass.i2.condition 0x60800041#32,
    IllegalClass.i3.condition 0x2E001021#32, IllegalClass.i4.condition 0x11008005#32,
    IllegalClass.i5.condition 0x3F0000FF#32, IllegalClass.i6.condition 0x6000FF00#32,
    IllegalClass.i7.condition 0xA0000002#32, IllegalClass.i8.condition 0x83000000#32].all id = true := by decide

theorem test_table_word : decodeTableWord 32 0x6C0000FF = some (.write 3 0xFF#8) := by decide
theorem test_table_word_illegal : decodeTableWord 32 0x10008005 = none := by decide

/-! ## Well-formed lines: an ill-formed one for each check (R83) -/

theorem test_wf_ctx : AsmLine.wf (.reset 4) = false := by decide
theorem test_wf_slot : AsmLine.wf (.build 2 0) = false := by decide
theorem test_wf_tab : AsmLine.wf (.new 0 4) = false := by decide
theorem test_wf_byte : AsmLine.wf (.write 0 256) = false := by decide
theorem test_wf_bytes : AsmLine.wf (.writes 0 [0x31, 256]) = false := by decide
theorem test_wf_poly : AsmLine.wf (.mktab 0 65536) = false := by decide
theorem test_wf_word : AsmLine.wf (.word 4294967296) = false := by decide
theorem test_wf_good : AsmLine.wf (.checksum 3 3 [0, 255]) = true := by decide

/-! ## The arithmetic (V1 to V14) -/

theorem test_entry : entry 0x8005#16 0x01#8 = 0x9705#16 ∧ entry 0x1021#16 0xFF#8 = 0x1284#16 := by decide
theorem test_entry_all_ones : entry 0xFFFF#16 0x03#8 = 0x0600#16 := by decide
theorem test_fold_byte : foldByte cachedAnsi 0x1234#16 0x34#8 = 0x0012#16 := by decide
theorem test_update : update 0x0000#16 cachedCcitt [0x41#8] = 0xE27B#16 := by decide
theorem test_order_matters : update 0x0000#16 cachedAnsi [0x32#8, 0x31#8] = 0xE2CC#16 := by decide +kernel
theorem test_sum_bytes : sumBytes [0xAA#8] 0xC284#16 = [0xAA#8, 0xC2#8, 0x84#8] := by decide
theorem test_table_for : tableFor 0x8004#16 0x80#8 = 0x8004#16 := by decide

/-! ## The operations, at most two each (section 2.2 and 2.4 of 95_test_vectors.md) -/

/-- V15c: a rebuilt slot; the old table is gone (0xC0C1 before). -/
theorem test_build_again : responses [0x1200A001#32, 0x12008408#32, 0x32000001#32]
    = [0x00000002#32, 0x00000002#32, 0x00001189#32] := by decide +kernel
/-- V15d: the slot is held, and keeps its table. -/
theorem test_build_inuse : responses [0x1200A001#32, 0x4A000000#32, 0x12008408#32, 0x32000001#32]
    = [0x00000002#32, 0x00000000#32, 0x30000000#32, 0x0000C0C1#32] := by decide +kernel
/-- V16b: a named polynomial sets no `UV` bit. -/
theorem test_mktab_named : responses [0x22001021#32, 0x32000000#32] = [0x00000001#32, 0x20000000#32] := by
  decide +kernel
/-- V16f, V16e: in use is no matter for a named polynomial. -/
theorem test_mktab_inuse : responses [0x1200A001#32, 0x4A000000#32, 0x22001234#32, 0x22008005#32]
    = [0x00000002#32, 0x00000000#32, 0x30000000#32, 0x00000000#32] := by decide +kernel
/-- V17c, V17f. -/
theorem test_tread : responses [0x31000001#32, 0x32000000#32] = [0x000017CE#32, 0x20000000#32] := by decide +kernel
/-- V17h: building `u1` does not build `u0`. -/
theorem test_tread_other_slot : responses [0x13000000#32, 0x320000FF#32] = [0x00000003#32, 0x20000000#32] := by
  decide +kernel
/-- V40b: refused, and nothing changed. -/
theorem test_new_notable : responses [0x4F000000#32] = [0x20000000#32]
    ∧ readTref (after [0x4F000000#32]) 3 = 0#2 := by decide +kernel
/-- V40d. -/
theorem test_new_user : readTref (after [0x1200A001#32, 0x68000031#32, 0x4A000000#32]) 2 = 2#2
    ∧ readCrc (after [0x1200A001#32, 0x68000031#32, 0x4A000000#32]) 2 = 0x0000#16 := by decide +kernel
/-- V41b: the table is kept. -/
theorem test_reset : readCrc (after [0x45000000#32, 0x64000041#32, 0x54000000#32]) 1 = 0x0000#16
    ∧ readTref (after [0x45000000#32, 0x64000041#32, 0x54000000#32]) 1 = 1#2 := by decide +kernel
/-- V42b. -/
theorem test_write : readCrc (after [0x60000031#32, 0x60000032#32]) 0 = 0x0773#16 := by decide +kernel
/-- V42f: another context is not touched. -/
theorem test_write_other : readCrc (after [0x60000031#32, 0x64000032#32]) 1 = 0xCC01#16
    ∧ readCrc (after [0x60000031#32, 0x64000032#32]) 0 = 0x7505#16 := by decide +kernel
/-- V43b, V43c. -/
theorem test_sum16 : responses [0x60000031#32, 0x70000000#32, 0x74000000#32]
    = [0x00000001#32, 0x00007505#32, 0x00000000#32] := by decide +kernel
/-- V44b: the high byte first. -/
theorem test_sum : (after [0x60000031#32, 0x80000000#32]).port.obyte = [0x75#8, 0x05#8] := by decide +kernel
/-- V45b. -/
theorem test_blksz : responses [0x9C000000#32] = [0x00000001#32] := by decide +kernel
/-- V46b. -/
theorem test_size : responses [0xAC000000#32] = [0x00000002#32] := by decide +kernel

/-! ## The step -/

/-- The block's reset falls between commands (R210, R212): the crc and the `UV` bit are gone. -/
theorem test_block_reset : readUv (nextOf (step { built with port := { cmd := [.blockReset], rsp := [], obyte := [] } })) 0
    = false := by decide +kernel
theorem test_illegal_answered : responses [0x00000000#32, 0x70000000#32] = [0x10000000#32, 0x00000000#32] := by
  decide +kernel
theorem test_fetch_word : (nextOf (step (State.reset.withFetchWord 32 0xA0000000))).port.rsp = [0x00000002#32] := by
  decide +kernel
theorem test_idle : (match step State.reset with | .refused .noCommand => true | _ => false) = true := by decide
theorem test_reset_memory_wf : State.reset.block.tab.wf = true := by decide
theorem test_built_memory_wf : built.block.tab.wf = true := by decide +kernel

/-! ## The assembler (R83, R84; V70) -/

theorem test_text_checksum : Assembler.assembleText "CHECKSUM_ANSI d3, \"abc\" ; note".toList =
    some [0x4C000000#32, 0x6C000061#32, 0x6C000062#32, 0x6C000063#32, 0x7C000000#32] := by decide +kernel
theorem test_text_lines : Assembler.assembleText "BUILD u0, 0xA001\n; nothing\n.word 0x60000141\nTREAD u1, 255".toList =
    some [0x1200A001#32, 0x60000141#32, 0x330000FF#32] := by decide +kernel
theorem test_text_empty_list : Assembler.assembleText "CHECKSUM d2, ccitt, []".toList =
    some [0x49000000#32, 0x78000000#32] := by decide +kernel
theorem test_text_ill : Assembler.assembleText "NEW d4, ansi".toList = none
    ∧ Assembler.assembleText "NEW d0, u2".toList = none := by decide +kernel

/-! ## Witnesses: for each statement with hypotheses, an input that meets them together -/

/-- EntryIsEightIterations: the nine values of V1. -/
theorem witness_entry_iterations : ∃ (p : U16) (i : Byte) (x : Nat → U16), x 0 = i.setWidth 16 ∧
    (∀ n, 1 ≤ n → n ≤ 8 → x n = if (x (n - 1)).getLsbD 0 then (x (n - 1) >>> 1) ^^^ p else x (n - 1) >>> 1) ∧
    x 8 = 0x9705#16 := by
  refine ⟨0x8005#16, 0x01#8, fun n => ([0x0001#16, 0x8005#16, 0xC007#16, 0xE006#16, 0x7003#16, 0xB804#16,
    0x5C02#16, 0x2E01#16, 0x9705#16][n]?).getD 0, by decide, ?_, by decide⟩
  intro n h1 h8
  interval_cases n <;> decide

/-- EntryIsLinearAndRevealsPolynomial, clause (c): the table of 0x8000 is `i` moved up by eight. -/
theorem witness_linear_table : ∃ (T : Table) (p : U16), (∀ a b : Byte, T (a ^^^ b) = T a ^^^ T b) ∧
    (∀ n < 8, T (BitVec.twoPow 8 n) = entry p (BitVec.twoPow 8 n)) ∧ T 0x01#8 = 0x0100#16 := by
  refine ⟨fun i => i.setWidth 16 <<< 8, 0x8000#16, fun a b => ?_, ?_, by decide⟩
  · show (a ^^^ b).setWidth 16 <<< 8 = a.setWidth 16 <<< 8 ^^^ b.setWidth 16 <<< 8
    rw [BitVec.setWidth_xor, BitVec.shiftLeft_xor_distrib]
  · intro n hn
    interval_cases n <;> decide

/-- UpdateFoldsBytesInOrder: the example of R130 and R131. -/
theorem witness_update_sequence : ∃ (crc : U16) (T : Table) (data : List Byte) (x : Nat → U16),
    x 0 = crc ^^^ 0xFFFF#16 ∧
    (∀ (j : Nat) (h : j < data.length), x (j + 1) = T ((x j).setWidth 8 ^^^ data[j]) ^^^ (x j >>> 8)) ∧
    data.length = 1 := by
  refine ⟨0x0000#16, cachedAnsi, [0x31#8], fun n => if n = 0 then 0xFFFF#16 else 0x8AFA#16, by decide, ?_, rfl⟩
  intro j h
  obtain rfl : j = 0 := by simpa using h
  show 0x8AFA#16 = cachedAnsi (BitVec.setWidth 8 0xFFFF#16 ^^^ 0x31#8) ^^^ (0xFFFF#16 >>> 8)
  decide

/-- CachedTablesAreTheListedValues, the step clause: a BUILD from reset. -/
theorem witness_listed_tables : ∃ s t : State, step s = .next t ∧
    (∀ i : Byte, s.block.tab.read (entryAddr TabNo.ansi i) = ansiListing[i.toNat]?) ∧
    (∀ i : Byte, s.block.tab.read (entryAddr TabNo.ccitt i) = ccittListing[i.toNat]?) :=
  ⟨started (asInputs [0x1200A001#32]), _, rfl, by decide +kernel, by decide +kernel⟩

/-- DecodeAndEncodeAreInverse, each clause. -/
theorem witness_decode_clauses : (∃ r ∈ opcodeRows, 0x12008005#32 &&& r.mask = r.pattern) ∧
    (∀ r ∈ opcodeRows, 0x00000000#32 &&& r.mask ≠ r.pattern) ∧ ∃ i, decode 0x6C0000FF#32 = .legal i :=
  ⟨by decide, by decide, _, rfl⟩

/-- OpcodeMapWordsDecode, the last clause. -/
theorem witness_row : ∃ r q : Row, r ∈ opcodeRows ∧ q ∈ opcodeRows ∧ 0x4F000000#32 &&& r.mask = r.pattern ∧
    0x4F000000#32 &&& q.mask = q.pattern :=
  ⟨⟨.new, 0x40000000#32, 0xF0FFFFFF#32⟩, ⟨.new, 0x40000000#32, 0xF0FFFFFF#32⟩, by decide, by decide, by decide,
    by decide⟩

/-- IllegalWordsAreTheEightClasses, the second clause, and AssemblerMakesOnlyLegalWords. -/
theorem witness_illegal_and_line : decode 0x10008005#32 = .illegal ∧
    Assembler.assemble (.build 0 0xA001) = some [0x1200A001#32] ∧ ∀ n, AsmLine.build 0 0xA001 ≠ .word n :=
  ⟨by decide, by decide, fun _ h => by cases h⟩

/-- BuildFillsFreeSlotOrAnswersInuse and MktabNamesCachedTableOrBuilds: a free slot and a held one. -/
theorem witness_free_and_held_slot : (∀ c : Ctx, readTref built c ≠ slotTab 0) ∧
    (∃ c : Ctx, readTref held c = slotTab 0) := ⟨by decide +kernel, 2, by decide +kernel⟩

/-- MktabNamesCachedTableOrBuilds, the third clause: a polynomial that is not named, one bit off one that is. -/
theorem witness_unnamed : 0x8004#16 ≠ 0x8005#16 ∧ 0x8004#16 ≠ 0x1021#16 := by decide

/-- TreadAnswersEntryOrNotable and NewStartsFreshDigestOrAnswersNotable: a cached table, a built slot and an
unbuilt one. -/
theorem witness_tables_there_or_not : (∀ k : Slot, TabNo.ccitt = slotTab k → readUv State.reset k = true) ∧
    (∀ k : Slot, slotTab 0 = slotTab k → readUv built k = true) ∧
    ∃ k : Slot, slotTab 1 = slotTab k ∧ readUv built k = false :=
  ⟨by decide, by decide +kernel, 1, by decide +kernel⟩

/-- TreadAnswersEntryOrNotable, the clause on a table built from `p`. -/
theorem witness_holds_table : HoldsTable State.reset TabNo.ccitt 0x1021#16 := by
  unfold HoldsTable
  decide +kernel

/-- NewStartsFreshDigestOrAnswersNotable, the clauses on the present table and on the last holder. -/
theorem witness_new_clauses : TabNo.ansi = readTref State.reset 0 ∧ TabNo.ansi ≠ slotTab 0 ∧
    ∀ c : Ctx, c ≠ 2 → readTref held c ≠ slotTab 0 := ⟨by decide, by decide, by decide +kernel⟩

/-- ResetClearsCrcKeepsTableReference, the clauses on a crc of 0 and on the present table. -/
theorem witness_reset_clauses : readCrc held 2 = 0x0000#16 ∧
    ∀ k : Slot, readTref held 2 = slotTab k → readUv held k = true := ⟨by decide +kernel, by decide +kernel⟩

/-- WriteFoldsOneByte, the last clause: the crc 0xFFFF of V14 (a), after `[0xFF, 0xFF]` (V22). -/
theorem witness_write_fixed_point : readCrc (after [0x600000FF#32, 0x600000FF#32]) 0 = 0xFFFF#16 ∧
    tabRead (after [0x600000FF#32, 0x600000FF#32]) TabNo.ansi 0x00#8 = 0x0000#16 ∧
    readTref (after [0x600000FF#32, 0x600000FF#32]) 0 = TabNo.ansi := by decide +kernel

/-- RefusalLeavesNoTrace: NEW over an unbuilt slot. -/
theorem witness_refusal : ∃ t r, execWord 0x4F000000#32 State.reset = .next t ∧
    t.port.rsp = State.reset.port.rsp ++ [r] ∧ r.extractLsb' 28 4 ≠ 0#4 :=
  ⟨_, 0x20000000#32, rfl, by decide, by decide⟩

/-- StepRunsTheDecodedOperation, StepStopsOnlyWithNothingPresented and BlockResetRestoresEveryValue. -/
theorem witness_steps : (started [.word 0x60000031#32]).port.cmd = .word 0x60000031#32 :: [] ∧
    decode 0x60000031#32 = .legal (.write 0 0x31#8) ∧ (started []).port.cmd = [] ∧
    (started [.blockReset]).port.cmd = .blockReset :: [] := by decide

/-- EveryWordIsAnswered, DigestIsUpdateOverBytesWritten, WritesLineUpdatesByAllItsBytes and the second clause of
ReferencedTablesAreBuiltAndUnchanged: a NEW of context 1, a byte to it, and a byte to another context. -/
theorem witness_digest_words : notBuilt State.reset TabNo.ccitt = false ∧
    (started (asInputs [0x45000000#32, 0x64000041#32, 0x60000031#32])).port.cmd =
      asInputs (encode (.new 1 TabNo.ccitt) :: [0x64000041#32, 0x60000031#32]) ++ [] ∧
    (∀ w ∈ [0x64000041#32, 0x60000031#32], restarts 1 w = false ∧ renews 1 w = false) ∧
    writtenTo 1 [0x64000041#32, 0x60000031#32] = [0x41#8] := by
  exact ⟨by decide, by decide +kernel,
    List.forall_mem_cons.mpr ⟨by decide, List.forall_mem_cons.mpr ⟨by decide, fun _ h => nomatch h⟩⟩, by decide +kernel⟩

/-- WritesLineUpdatesByAllItsBytes, the first clause. -/
theorem witness_writes_line : (started (asInputs [0x64000041#32])).port.cmd =
    asInputs ([0x41#8].map fun b => encode (.write 1 b)) ++ [] := by decide

/-- StepDependsOnBlockAndFirstInput: the same block and first input, other words behind it. -/
theorem witness_same_first_input : ∃ t, (started [.word 0x60000031#32]).port.cmd = .word 0x60000031#32 :: [] ∧
    (started [.word 0x60000031#32, .blockReset]).port.cmd = .word 0x60000031#32 :: [.blockReset] ∧
    (started [.word 0x60000031#32, .blockReset]).block = (started [.word 0x60000031#32]).block ∧
    (started [.word 0x60000031#32, .blockReset]).resets = (started [.word 0x60000031#32]).resets ∧
    step (started [.word 0x60000031#32]) = .next t := ⟨_, rfl, rfl, rfl, rfl, rfl⟩

/-- PureReadsChangeNoLaterResponse. -/
theorem witness_pure_reads : pureRead (.tread 0#2 0x00#8) = true ∧
    (∀ x ∈ [0x30000001#32, 0x70000000#32, 0x80000000#32, 0x90000000#32, 0xA0000000#32], pureReadWord x = true) ∧
    (started (asInputs [0x30000001#32, 0x60000031#32])).port.cmd =
      asInputs [0x30000001#32] ++ (asInputs [0x60000031#32] ++ []) := by
  exact ⟨rfl, List.all_eq_true.mp (by decide), by decide +kernel⟩

/-- StepKeepsInvariant and UnbuiltEntriesAreUnobservable: a state after reset with a BUILD presented meets the
invariant and has a step. -/
theorem witness_invariant : ∃ t, Inv (started (asInputs [0x1200A001#32])) ∧
    step (started (asInputs [0x1200A001#32])) = .next t ∧
    runFor 1 (started (asInputs [0x1200A001#32])) = .next t := by
  refine ⟨_, ⟨by decide, ?_, ?_, ?_, ?_, by decide⟩, rfl, rfl⟩
  · unfold HoldsTable; decide +kernel
  · unfold HoldsTable; decide +kernel
  · intro k h
    exact absurd h (by revert k; decide)
  · decide +kernel

/-- ReferencedTablesAreBuiltAndUnchanged, the first clause: a run that builds a slot and gives it to a context. -/
theorem witness_reached : ∃ t, runFor 2 (started (asInputs [0x1200A001#32, 0x4A000000#32])) = .next t ∧
    readTref t 2 = slotTab 0 := ⟨_, rfl, by decide +kernel⟩

/-- OnlyBlockResetClearsUv. -/
theorem witness_uv_cleared : ∃ t, step { built with port := { cmd := [.blockReset], rsp := [], obyte := [] } } = .next t ∧
    readUv { built with port := { cmd := [.blockReset], rsp := [], obyte := [] } } 0 = true ∧ readUv t 0 = false :=
  ⟨_, rfl, by decide +kernel, by decide +kernel⟩

/-- ContextsAreIndependent, both clauses: contexts 0 and 1, each fed one byte, a SUM16 between. -/
theorem witness_contexts : (∃ t, exec (.write 0 0x31#8) State.reset = .next t) ∧
    contextOf (.write 0 0x31#8) ≠ some 1 ∧ readCrc State.reset 0 = readCrc State.reset 1 ∧
    readTref State.reset 0 = readTref State.reset 1 ∧
    ([0x60000031#32, 0x70000000#32, 0x64000031#32].all fun w => !restarts 0 w && !restarts 1 w) = true ∧
    writtenTo 0 [0x60000031#32, 0x70000000#32, 0x64000031#32] = [0x31#8] ∧
    writtenTo 1 [0x60000031#32, 0x70000000#32, 0x64000031#32] = [0x31#8] := ⟨⟨_, rfl⟩, by decide⟩

/-- ChecksumLineAnswersChecksum and OneShotAgreesWithIncremental: a table that is there and one that is not. -/
theorem witness_checksum_lines : notBuilt State.reset 0#2 = false ∧ notBuilt State.reset 2#2 = true ∧
    Assembler.assemble (.checksum 0 0 [0x41]) = some [0x40000000#32, 0x60000041#32, 0x70000000#32] ∧
    Assembler.assemble (.checksum 0 2 [0x41]) = some [0x42000000#32, 0x60000041#32, 0x70000000#32] ∧
    Assembler.assembleAll [.new 1 0, .writes 1 [0x41], .writes 1 [], .sum16 1] =
      some [0x44000000#32, 0x64000041#32, 0x74000000#32] := by decide

end Sys2Proof.Tests
end

section
/-! PROOFS. Runs: the two inductions, over steps and over command words, and that the channels have no influence on
what a word does and answers. -/

namespace Sys2Proof.Machine

/-! ## Runs: what every step keeps, and what words keep -/

/-- The induction over a run, once: what every step keeps holds where the run ends. -/
theorem runFor_keeps {P : State → Prop} (hstep : ∀ s t, P s → step s = .next t → P t) {n : Nat} {s t : State}
    (hs : P s) (h : runFor n s = .next t) : P t := by
  induction n generalizing s with
  | zero => cases h; exact hs
  | succ n ih =>
    obtain ⟨u, hu, ht⟩ := runFor_succ_inv h
    exact ih (hstep s u hs hu) ht

/-- The induction over command words, once: words that all meet `Q` are executed to their end, and what executing
such a word keeps, whatever is on the channels, holds there. -/
theorem runFor_words_keeps {P : State → Prop} {Q : Word → Prop} (hport : ∀ s q, P s → P { s with port := q })
    (hexec : ∀ w s t, Q w → P s → execWord w s = .next t → P t) {ws : List Word} {rest : List Input} {s : State}
    (hcmd : s.port.cmd = asInputs ws ++ rest) (hws : ∀ w ∈ ws, Q w) (hs : P s) :
    ∃ t, runFor ws.length s = .next t ∧ t.port.cmd = rest ∧ P t := by
  induction ws generalizing s with
  | nil => exact ⟨s, rfl, hcmd, hs⟩
  | cons w ws ih =>
    obtain ⟨hw, hws⟩ := List.forall_mem_cons.1 hws
    obtain ⟨u, hu, ha⟩ := execWord_answer w { s with port := { s.port with cmd := asInputs ws ++ rest } }
    obtain ⟨t, ht, hp⟩ := ih ha.cmd hws (hexec _ _ _ hw (hport _ _ hs) hu)
    exact ⟨t, (runFor_next ((step_word hcmd).trans hu)).trans ht, hp⟩

/-! ## The channels have no influence (10_state.md R30) -/

theorem buildInto_anyPort (k : Slot) (p : U16) (s : State) : ∃ b st v bs, ∀ q : Port,
    buildInto k p { s with port := q } = respond st v bs { s with block := b, port := q } := by
  cases h : inUse s k with
  | true => exact ⟨s.block, _, _, _, fun q => buildInto_inuse (s := { s with port := q }) p h⟩
  | false =>
    exact ⟨(setUv (writeTable s (slotTab k) (buildTable p)) k).block, _, _, _,
      fun q => buildInto_free (s := { s with port := q }) p h⟩

/-- What an operation does to the block and what it answers are the same whatever is on the channels. -/
theorem exec_anyPort (i : Instr) (s : State) : ∃ b st v bs, ∀ q : Port,
    exec i { s with port := q } = .next (respond st v bs { s with block := b, port := q }) := by
  cases i with
  | build k p =>
    obtain ⟨b, st, v, bs, h⟩ := buildInto_anyPort k p s
    exact ⟨b, st, v, bs, fun q => congrArg _ (h q)⟩
  | mktab k p =>
    obtain ⟨b, st, v, bs, h⟩ := buildInto_anyPort k p s
    simp only [exec, execMktab]
    split
    · exact ⟨s.block, _, _, _, fun _ => rfl⟩
    · split
      · exact ⟨s.block, _, _, _, fun _ => rfl⟩
      · exact ⟨b, st, v, bs, fun q => congrArg _ (h q)⟩
  | tread n i =>
    have hn (q : Port) : notBuilt { s with port := q } n = notBuilt s n := notBuilt_congr rfl n
    simp only [exec, execTread, hn]
    split
    · exact ⟨s.block, _, _, _, fun _ => rfl⟩
    · exact ⟨s.block, .ok, tabRead s n i, _, fun _ => rfl⟩
  | new c n =>
    have hn (q : Port) : notBuilt { s with port := q } n = notBuilt s n := notBuilt_congr rfl n
    simp only [exec, execNew, hn]
    split
    · exact ⟨s.block, _, _, _, fun _ => rfl⟩
    · exact ⟨(writeTref (writeCrc s c 0x0000#16) c n).block, _, _, _, fun _ => rfl⟩
  | reset c => exact ⟨(writeCrc s c 0x0000#16).block, _, _, _, fun _ => rfl⟩
  | write c b =>
    exact ⟨(writeCrc s c (update (readCrc s c) (tableAt s (readTref s c)) [b])).block, _, _, _, fun _ => rfl⟩
  | sum16 c => exact ⟨s.block, .ok, readCrc s c, _, fun _ => rfl⟩
  | sum c => exact ⟨s.block, .ok, _, sumBytes [] (readCrc s c), fun _ => rfl⟩
  | blksz c => exact ⟨s.block, _, _, _, fun _ => rfl⟩
  | size c => exact ⟨s.block, _, _, _, fun _ => rfl⟩

theorem execWord_anyPort (w : Word) (s : State) : ∃ b st v bs, ∀ q : Port,
    execWord w { s with port := q } = .next (respond st v bs { s with block := b, port := q }) := by
  unfold execWord
  split
  · exact exec_anyPort _ s
  · exact ⟨s.block, _, _, _, fun _ => rfl⟩

/-- What words do to the block and what they answer are the same whatever waits behind them and whatever was
answered before them. -/
theorem runFor_words_anyPort (ws : List Word) (s : State) : ∃ b rs bytes, rs.length = ws.length ∧
    ∀ q : Port, ∀ rest : List Input, q.cmd = asInputs ws ++ rest →
      runFor ws.length { s with port := q } =
        .next { s with block := b, port := { cmd := rest, rsp := q.rsp ++ rs, obyte := q.obyte ++ bytes } } := by
  induction ws generalizing s with
  | nil =>
    refine ⟨s.block, [], [], rfl, fun q rest hq => ?_⟩
    obtain rfl : q.cmd = rest := hq
    simp
  | cons w ws ih =>
    obtain ⟨b, st, v, bs, hw⟩ := execWord_anyPort w s
    obtain ⟨b', rs, bytes, hlen, hws⟩ := ih { s with block := b }
    refine ⟨b', responseWord st v :: rs, bs ++ bytes, by simp [hlen], fun q rest hq => ?_⟩
    have hfirst := (step_word (s := { s with port := q }) hq).trans (hw _)
    simpa [respond] using (runFor_next hfirst).trans (hws _ rest rfl)

end Sys2Proof.Machine
end

section
/-! PROOFS. O34: the pure reads change nothing and leave no trace. -/

namespace Sys2Proof.Machine

theorem exec_pureRead {i : Instr} (h : pureRead i = true) (s : State) :
    ∃ t, exec i s = .next t ∧ t.block = s.block := by
  cases i with
  | build | mktab | new | reset | write => cases h
  | tread n i =>
    simp only [exec, execTread]
    split <;> exact ⟨_, rfl, rfl⟩
  | sum16 | sum | blksz | size => exact ⟨_, rfl, rfl⟩

theorem execWord_pureRead {w : Word} {s t : State} (hw : pureReadWord w = true) (h : execWord w s = .next t) :
    t.block = s.block := by
  cases hd : decode w with
  | illegal => simp [pureReadWord, hd] at hw
  | legal i =>
    obtain ⟨u, hu, hb⟩ := exec_pureRead (i := i) (by simpa [pureReadWord, hd] using hw) s
    simp only [execWord, hd, hu] at h
    cases h
    exact hb

/-- Executing a word does not touch the count of resets. -/
theorem execWord_resets {w : Word} {s t : State} (h : execWord w s = .next t) : t.resets = s.resets := by
  obtain ⟨u, hu, ha⟩ := execWord_answer w s
  cases hu.symm.trans h
  exact ha.resets

/-- Words that only read leave all but the channels as it was. -/
theorem runFor_pureReads {ws : List Word} {rest : List Input} {s : State} (hws : ∀ w ∈ ws, pureReadWord w = true)
    (hcmd : s.port.cmd = asInputs ws ++ rest) :
    ∃ q : Port, runFor ws.length s = .next { s with port := q } ∧ q.cmd = rest := by
  obtain ⟨⟨b, q, r⟩, ht, hrest, hb, hr⟩ := runFor_words_keeps
    (P := fun t => t.block = s.block ∧ t.resets = s.resets) (fun _ _ h => h)
    (fun _ _ _ hw ⟨hb, hr⟩ h => ⟨(execWord_pureRead hw h).trans hb, (execWord_resets h).trans hr⟩)
    hcmd hws ⟨rfl, rfl⟩
  cases hb
  cases hr
  exact ⟨q, ht, hrest⟩

/-- Settles O34: the reads leave the block as it was, and from the same block the later words do the same and
answer the same, whatever the channels carry from the reads. -/
theorem pureReadsChangeNoLaterResponse : Obligations.PureReadsChangeNoLaterResponse := by
  refine ⟨fun i s h => exec_pureRead h s, ?_⟩
  rintro ws vs rest s s' hws hcmd rfl
  obtain ⟨q, hm, hq⟩ := runFor_pureReads hws hcmd
  obtain ⟨b, rs, bytes, hlen, hvs⟩ := runFor_words_anyPort vs s
  exact ⟨_, _, _, rs, bytes, hm, hvs q rest hq, hvs _ rest rfl, rfl, hlen, rfl, rfl, rfl, rfl⟩

end Sys2Proof.Machine
end

section
/-! PROOFS. The invariant `Inv`: it holds at reset, every step keeps it, so every reached state meets it. -/

namespace Sys2Proof.Machine

/-! ## The reset contents of the table space (10_state.md R31) -/

theorem unlisted_ansi (i : Byte) : unlisted (entryAddr TabNo.ansi i).toNat = some (entry Config.ansiPoly i) := by
  have h := i.isLt
  simp [unlisted, entryAddr_toNat, cachedAnsi, buildTable, h]

theorem unlisted_ccitt (i : Byte) : unlisted (entryAddr TabNo.ccitt i).toNat = some (entry Config.ccittPoly i) := by
  have hlt := i.isLt
  have h : 256 + i.toNat < 512 := by omega
  have hi : BitVec.ofNat 8 (256 + i.toNat) = i := BitVec.eq_of_toNat_eq (by rw [BitVec.toNat_ofNat]; omega)
  simp [unlisted, entryAddr_toNat, cachedCcitt, buildTable, h, hi]

theorem unlisted_slot (k : Slot) (i : Byte) : unlisted (entryAddr (slotTab k) i).toNat = none := by
  have h : ¬ 256 * (2 + k.val) + i.toNat < 0x100 := by omega
  have h' : ¬ 256 * (2 + k.val) + i.toNat < 0x200 := by omega
  rw [entryAddr_toNat, slotTab_toNat, unlisted, if_neg h, if_neg h']

/-! ## The invariant (10_state.md R28, R29) -/

/-- The invariant speaks of the block alone. -/
theorem inv_of_block_eq {s t : State} (h : t.block = s.block) (hs : Inv s) : Inv t := by
  obtain ⟨b, q, r⟩ := t
  obtain rfl : b = s.block := h
  exact ⟨hs.canonical, hs.ansi, hs.ccitt, hs.built, hs.unbuilt, hs.refs⟩

theorem readTref_reset (c : Ctx) : readTref State.reset c = TabNo.ansi := by
  revert c; decide

theorem readUv_reset (k : Slot) : readUv State.reset k = false := by
  revert k; decide

theorem inv_reset : Inv State.reset where
  canonical := rfl
  ansi := unlisted_ansi
  ccitt := unlisted_ccitt
  built k h := absurd h (by simp [readUv_reset])
  unbuilt k _ := unlisted_slot k
  refs c := by rw [readTref_reset]; rfl

theorem inv_writeCrc {s : State} (hs : Inv s) (c : Ctx) (v : U16) : Inv (writeCrc s c v) :=
  ⟨hs.canonical, hs.ansi, hs.ccitt, hs.built, hs.unbuilt, hs.refs⟩

theorem inv_writeTref {s : State} (hs : Inv s) (c : Ctx) {n : TabNo} (hn : notBuilt s n = false) :
    Inv (writeTref s c n) where
  canonical := hs.canonical
  ansi := hs.ansi
  ccitt := hs.ccitt
  built := hs.built
  unbuilt := hs.unbuilt
  refs c' := by
    rw [readTref_writeTref]
    split
    · exact hn
    · exact hs.refs c'

/-- A table written is the table held. -/
theorem holdsTable_writeTable_same (s : State) (n : TabNo) (p : U16) :
    HoldsTable (writeTable s n (buildTable p)) n p := fun i => by
  simp [Memory.read_fill, buildTable]

theorem read_writeTable_other {s : State} {n m : TabNo} (h : m ≠ n) (T : Table) (i : Byte) :
    (writeTable s n T).block.tab.read (entryAddr m i) = s.block.tab.read (entryAddr m i) := by
  simp [Memory.read_fill, h]

theorem holdsTable_writeTable_other {s : State} {n m : TabNo} {p : U16} (h : m ≠ n) (T : Table)
    (hs : HoldsTable s m p) : HoldsTable (writeTable s n T) m p := fun i =>
  (read_writeTable_other h T i).trans (hs i)

theorem ansi_ne_slotTab (k : Slot) : TabNo.ansi ≠ slotTab k := by
  revert k; decide

theorem ccitt_ne_slotTab (k : Slot) : TabNo.ccitt ≠ slotTab k := by
  revert k; decide

/-- A slot that is built stays built when a slot is. -/
theorem notBuilt_setUv {s : State} {n : TabNo} (k : Slot) (h : notBuilt s n = false) :
    notBuilt (setUv s k) n = false := by
  cases hn : userSlot n with
  | none => simp [notBuilt, hn]
  | some l =>
    simp only [notBuilt, hn, Bool.not_eq_false', readUv_setUv] at h ⊢
    split
    · rfl
    · exact h

theorem inv_build {s : State} (hs : Inv s) (k : Slot) (p : U16) :
    Inv (setUv (writeTable s (slotTab k) (buildTable p)) k) where
  canonical := Memory.wf_fill hs.canonical _ _
  ansi := holdsTable_writeTable_other (ansi_ne_slotTab k) _ hs.ansi
  ccitt := holdsTable_writeTable_other (ccitt_ne_slotTab k) _ hs.ccitt
  built l hl := by
    by_cases hk : k = l
    · subst hk
      exact ⟨p, holdsTable_writeTable_same s _ p⟩
    · obtain ⟨p', hp'⟩ := hs.built l (by simpa [hk] using hl)
      exact ⟨p', holdsTable_writeTable_other (fun e => hk (slotTab_inj.1 e).symm) _ hp'⟩
  unbuilt l hl i := by
    by_cases hk : k = l
    · simp [hk] at hl
    · rw [setUv_tab, read_writeTable_other fun e => hk (slotTab_inj.1 e).symm]
      exact hs.unbuilt l (by simpa [hk] using hl) i
  refs c := notBuilt_setUv k (hs.refs c)

theorem inv_of_blockChange {s t : State} (hs : Inv s) (h : BlockChange s t.block) : Inv t := by
  cases h with
  | same h => exact inv_of_block_eq h hs
  | build k p _ h => exact inv_of_block_eq h (inv_build hs k p)
  | crc c v h => exact inv_of_block_eq h (inv_writeCrc hs c v)
  | fresh c n there h => exact inv_of_block_eq h (inv_writeTref (inv_writeCrc hs c _) c there)

theorem inv_step {s t : State} (hs : Inv s) (h : step s = .next t) : Inv t := by
  obtain ⟨rest, -, rfl⟩ | ⟨w, rest, -, -, ha⟩ := step_cases h
  · exact inv_of_block_eq (s := State.reset) rfl inv_reset
  · refine inv_of_blockChange ?_ ha.change
    exact inv_of_block_eq (s := s) rfl hs

theorem inv_started (inputs : List Input) : Inv (started inputs) :=
  inv_of_block_eq (s := State.reset) rfl inv_reset

/-- Every state a run from reset reaches meets the invariant. -/
theorem inv_reached {inputs : List Input} {n : Nat} {t : State} (h : runFor n (started inputs) = .next t) : Inv t :=
  runFor_keeps (fun _ _ => inv_step) (inv_started inputs) h

/-- In a state that meets the invariant a table that is there is cached or a built slot's, and holds the table of
some polynomial. -/
theorem holdsTable_of_built {s : State} (hs : Inv s) {n : TabNo} (hn : notBuilt s n = false) :
    (n = TabNo.ansi ∨ n = TabNo.ccitt ∨ ∃ k : Slot, n = slotTab k ∧ readUv s k = true) ∧
      ∃ p : U16, HoldsTable s n p := by
  obtain rfl | rfl | ⟨k, rfl⟩ := tabNo_cases n
  · exact ⟨.inl rfl, _, hs.ansi⟩
  · exact ⟨.inr (.inl rfl), _, hs.ccitt⟩
  · have hk : readUv s k = true := by simpa using hn
    exact ⟨.inr (.inr ⟨k, rfl, hk⟩), hs.built k hk⟩

end Sys2Proof.Machine
end

section
/-! PROOFS. O39: the table a context refers to is built and stays. -/

namespace Sys2Proof.Machine

/-- Executing an operation changes no entry of a table that a context refers to: it builds only into a free slot. -/
theorem BlockChange.read_referenced {s : State} {b : Block} (h : BlockChange s b) (c : Ctx) (i : Byte) :
    b.tab.read (entryAddr (readTref s c) i) = s.block.tab.read (entryAddr (readTref s c) i) := by
  cases h with
  | same h | crc _ _ h | fresh _ _ _ h => subst h; rfl
  | build k p free h =>
    have hc : readTref s c ≠ slotTab k := fun e => by simp [(inUse_iff s k).2 ⟨c, e⟩] at free
    rw [h, setUv_tab, read_writeTable_other hc]

@[simp] theorem readTref_buildInto (k : Slot) (p : U16) (s : State) (c : Ctx) :
    readTref (buildInto k p s) c = readTref s c := by
  cases h : inUse s k with
  | true => rw [buildInto_inuse p h]; rfl
  | false => rw [buildInto_free p h]; rfl

/-- Only NEW of `c` writes `TREF[c]` (10_state.md R22). -/
theorem exec_readTref {i : Instr} {s t : State} {c : Ctx} (h : exec i s = .next t) (hi : ∀ n, i ≠ .new c n) :
    readTref t c = readTref s c := by
  cases i with
  | build k p => cases h; simp
  | mktab k p =>
    simp only [exec, execMktab] at h
    split at h
    · cases h; rfl
    · split at h <;> cases h <;> simp
  | tread n i =>
    simp only [exec, execTread] at h
    split at h <;> cases h <;> rfl
  | new c' n =>
    have hc : c' ≠ c := fun e => hi n (by rw [e])
    simp only [exec, execNew] at h
    split at h
    · cases h; rfl
    · cases h; simp [hc]
  | reset | write | sum16 | sum | blksz | size => cases h; rfl

theorem execWord_readTref {w : Word} {s t : State} {c : Ctx} (hw : renews c w = false) (h : execWord w s = .next t) :
    readTref t c = readTref s c := by
  cases hd : decode w with
  | illegal => simp only [execWord, hd] at h; cases h; rfl
  | legal i =>
    simp only [execWord, hd] at h
    refine exec_readTref h ?_
    rintro n rfl
    simp [renews, hd] at hw

/-- `TREF[c]` is `n`, and the store of table `n` reads as the table space `m` does. -/
def RefersUnchanged (c : Ctx) (n : TabNo) (m : Memory) (s : State) : Prop :=
  readTref s c = n ∧ ∀ i : Byte, s.block.tab.read (entryAddr n i) = m.read (entryAddr n i)

theorem execWord_refersUnchanged {c : Ctx} {n : TabNo} {m : Memory} {w : Word} {s t : State}
    (hw : renews c w = false) (hs : RefersUnchanged c n m s) (h : execWord w s = .next t) :
    RefersUnchanged c n m t := by
  obtain ⟨rfl, htab⟩ := hs
  obtain ⟨u, hu, ha⟩ := execWord_answer w s
  cases hu.symm.trans h
  exact ⟨execWord_readTref hw h, fun i => (ha.change.read_referenced c i).trans (htab i)⟩

/-- Settles O39: the invariant holds in every state reached, and words without a NEW of `c` keep the reference of
`c` and the table it names. -/
theorem referencedTablesAreBuiltAndUnchanged : Obligations.ReferencedTablesAreBuiltAndUnchanged := by
  constructor
  · intro inputs n t h c
    have ht := inv_reached h
    exact holdsTable_of_built ht (ht.refs c)
  · intro ws rest s c hcmd hws
    obtain ⟨t, ht, -, href, htab⟩ := runFor_words_keeps
      (P := RefersUnchanged c (readTref s c) s.block.tab) (fun _ _ h => h)
      (fun _ _ _ => execWord_refersUnchanged) hcmd hws ⟨rfl, fun _ => rfl⟩
    exact ⟨t, ht, href, htab⟩

end Sys2Proof.Machine
end

section
/-! PROOFS. O9: the 512 listed reset values of the cached tables (11_table_reset_values.md R34, R35). -/

namespace Sys2Proof.Machine

/-! ## The listings are the entries of R100 -/

theorem ansiListing_eq : ansiListing = byteValues.map (entry Config.ansiPoly) := by
  decide +kernel

theorem ccittListing_eq : ccittListing = byteValues.map (entry Config.ccittPoly) := by
  decide +kernel

theorem byteValues_length : byteValues.length = 256 := by
  simp [byteValues]

theorem getElem?_map_byteValues (T : Table) (i : Byte) : (byteValues.map T)[i.toNat]? = some (T i) := by
  have h := i.isLt
  simp [byteValues, h]

theorem getElem?_ansiListing (i : Byte) : ansiListing[i.toNat]? = some (entry Config.ansiPoly i) := by
  rw [ansiListing_eq, getElem?_map_byteValues]

theorem getElem?_ccittListing (i : Byte) : ccittListing[i.toNat]? = some (entry Config.ccittPoly i) := by
  rw [ccittListing_eq, getElem?_map_byteValues]

theorem ansiListing_length : ansiListing.length = 256 := by
  rw [ansiListing_eq, List.length_map, byteValues_length]

theorem ccittListing_length : ccittListing.length = 256 := by
  rw [ccittListing_eq, List.length_map, byteValues_length]

/-! ## An entry is linear in its index (40_table_builder.md R100) -/

theorem shiftXor_xor (p x y : U16) : shiftXor p (x ^^^ y) = shiftXor p x ^^^ shiftXor p y := by
  simp only [shiftXor, BitVec.getLsbD_xor, BitVec.ushiftRight_xor_distrib]
  cases x.getLsbD 0 <;> cases y.getLsbD 0
  case true.true =>
    calc x >>> 1 ^^^ y >>> 1
      _ = (x >>> 1 ^^^ y >>> 1) ^^^ (p ^^^ p) := by simp
      _ = (x >>> 1 ^^^ p) ^^^ (y >>> 1 ^^^ p) := by ac_rfl
  all_goals simp only [Bool.xor_false, Bool.xor_true, Bool.not_false, Bool.false_eq_true, if_true, if_false]
  all_goals ac_rfl

theorem iterate_shiftXor_xor (p : U16) (n : Nat) (x y : U16) :
    (shiftXor p)^[n] (x ^^^ y) = (shiftXor p)^[n] x ^^^ (shiftXor p)^[n] y := by
  induction n generalizing x y with
  | zero => rfl
  | succ n ih => simp only [Function.iterate_succ_apply, shiftXor_xor, ih]

/-- `Entry(p, ·)` is linear. -/
theorem entry_xor (p : U16) (i j : Byte) : entry p (i ^^^ j) = entry p i ^^^ entry p j := by
  rw [entry, BitVec.setWidth_xor, iterate_shiftXor_xor]
  rfl

/-- A linear map that sends only 0 to 0 is injective. -/
theorem entry_injective {p : U16} (hp : ∀ i : Byte, entry p i = 0x0000#16 → i = 0x00#8) :
    Function.Injective (entry p) := by
  intro i j hij
  have hz : i ^^^ j = 0x00#8 := hp _ (by rw [entry_xor, hij, BitVec.xor_self])
  exact BitVec.xor_eq_zero_iff.1 hz

theorem byteValues_nodup : byteValues.Nodup :=
  byteValues_rising.imp fun h e => absurd h (by simp [e])

/-! ## The rules' checks on the listings -/

theorem ansiListing_xor : ansiListing.foldl (· ^^^ ·) 0x0000#16 = 0x0000#16 := by
  decide +kernel

theorem ccittListing_xor : ccittListing.foldl (· ^^^ ·) 0x0000#16 = 0x0000#16 := by
  decide +kernel

theorem ansiListing_nodup : ansiListing.Nodup := by
  rw [ansiListing_eq]
  exact byteValues_nodup.map (entry_injective (by decide +kernel))

theorem ccittListing_nodup : ccittListing.Nodup := by
  rw [ccittListing_eq]
  exact byteValues_nodup.map (entry_injective (by decide +kernel))

/-! ## Every step keeps the cached tables (10_state.md R27) -/

/-- Executing an operation changes no entry outside the user slots. -/
theorem BlockChange.read_cached {s : State} {b : Block} (h : BlockChange s b) {n : TabNo}
    (hn : ∀ k, n ≠ slotTab k) (i : Byte) : b.tab.read (entryAddr n i) = s.block.tab.read (entryAddr n i) := by
  cases h with
  | same h | crc _ _ h | fresh _ _ _ h => subst h; rfl
  | build k p _ h => rw [h, setUv_tab, read_writeTable_other (hn k)]

/-- An entry outside the user slots that reads as at reset still does after a step: a command word leaves it, and a
reset of the block restores it. -/
theorem step_keeps_resetEntry {s t : State} (h : step s = .next t) {n : TabNo} (hn : ∀ k, n ≠ slotTab k) (i : Byte)
    (hs : s.block.tab.read (entryAddr n i) = State.reset.block.tab.read (entryAddr n i)) :
    t.block.tab.read (entryAddr n i) = State.reset.block.tab.read (entryAddr n i) := by
  obtain ⟨rest, -, rfl⟩ | ⟨w, rest, -, -, ha⟩ := step_cases h
  · rfl
  · exact (ha.change.read_cached hn i).trans hs

theorem read_reset_ansi (i : Byte) :
    State.reset.block.tab.read (entryAddr TabNo.ansi i) = ansiListing[i.toNat]? :=
  (inv_reset.ansi i).trans (getElem?_ansiListing i).symm

theorem read_reset_ccitt (i : Byte) :
    State.reset.block.tab.read (entryAddr TabNo.ccitt i) = ccittListing[i.toNat]? :=
  (inv_reset.ccitt i).trans (getElem?_ccittListing i).symm

/-- Settles O9: the listings are the tables of the two constants, which is what the reset contents are, and a step
writes only user slots or restores the reset contents. -/
theorem cachedTablesAreTheListedValues : Obligations.CachedTablesAreTheListedValues := by
  refine ⟨ansiListing_length, ccittListing_length, getElem?_ansiListing, getElem?_ccittListing, read_reset_ansi,
    read_reset_ccitt, ?step, ansiListing_xor, ccittListing_xor, ansiListing_nodup, ccittListing_nodup⟩
  intro s t h hansi hccitt
  simp only [← read_reset_ansi, ← read_reset_ccitt] at hansi hccitt ⊢
  exact ⟨fun i => step_keeps_resetEntry h ansi_ne_slotTab i (hansi i),
    fun i => step_keeps_resetEntry h ccitt_ne_slotTab i (hccitt i)⟩

end Sys2Proof.Machine
end

section
/-! PROOFS. The rows of the opcode map (30_encoding.md R74) as conditions on the fields of a word, and the decoder as
the search for the row a word matches (R75). -/

namespace Sys2Proof

/-! ## A masked word, field by field (30_encoding.md R71) -/

/-- A word is determined by its fields. -/
theorem word_ext_iff {v w : Word} : v = w ↔ opField v = opField w ∧ ctxField v = ctxField w ∧
    tselField v = tselField w ∧ rsvField v = rsvField w ∧ argField v = argField w := by
  constructor
  · rintro rfl
    simp
  · rintro ⟨ho, hc, ht, hr, ha⟩
    rw [← fields_append v, ho, hc, ht, hr, ha, fields_append]

theorem and_eq_iff_fields (w m p : Word) : w &&& m = p ↔
    opField w &&& opField m = opField p ∧ ctxField w &&& ctxField m = ctxField p ∧
    tselField w &&& tselField m = tselField p ∧ rsvField w &&& rsvField m = rsvField p ∧
    argField w &&& argField m = argField p := by
  simp only [word_ext_iff (v := w &&& m), opField, ctxField, tselField, rsvField, argField, BitVec.extractLsb'_and]

/-! ## The fields that the rows fix in part -/

theorem and_two_eq_two_iff (t : BitVec 2) : t &&& 2#2 = 2#2 ↔ t.getLsbD 1 = true := by
  revert t; decide

/-- An `ARG` with `ARG[15:8]` = 0 is that of its low byte. -/
theorem byteArg_low {a : U16} (h : a.extractLsb' 8 8 = 0#8) : byteArg (a.extractLsb' 0 8) = a := by
  rw [byteArg, ← h, BitVec.extractLsb'_append_extractLsb'_eq_extractLsb' (by omega)]
  exact BitVec.extractLsb'_eq_self

theorem and_high_eq_zero_iff (a : U16) : a &&& 0xFF00#16 = 0#16 ↔ a.extractLsb' 8 8 = 0#8 := by
  constructor
  · intro h
    have h8 : a.extractLsb' 8 8 &&& BitVec.allOnes 8 = 0#8 := by
      simpa [BitVec.extractLsb'_and] using congrArg (BitVec.extractLsb' 8 8) h
    rwa [BitVec.and_allOnes] at h8
  · intro h
    rw [← byteArg_low h, byteArg_and_high]

/-! ## The rows -/

/-- The column "pattern" of R74: what the row of an operation asks of the fields of a word. -/
def FieldsFit : Mnemonic → Word → Prop
  | .build, w => opField w = 0x1#4 ∧ ctxField w = 0#2 ∧ (tselField w).getLsbD 1 = true ∧ rsvField w = 0x00#8
  | .mktab, w => opField w = 0x2#4 ∧ ctxField w = 0#2 ∧ (tselField w).getLsbD 1 = true ∧ rsvField w = 0x00#8
  | .tread, w => opField w = 0x3#4 ∧ ctxField w = 0#2 ∧ rsvField w = 0x00#8 ∧ (argField w).extractLsb' 8 8 = 0#8
  | .new, w => opField w = 0x4#4 ∧ rsvField w = 0x00#8 ∧ argField w = 0#16
  | .reset, w => opField w = 0x5#4 ∧ tselField w = 0#2 ∧ rsvField w = 0x00#8 ∧ argField w = 0#16
  | .write, w => opField w = 0x6#4 ∧ tselField w = 0#2 ∧ rsvField w = 0x00#8 ∧ (argField w).extractLsb' 8 8 = 0#8
  | .sum16, w => opField w = 0x7#4 ∧ tselField w = 0#2 ∧ rsvField w = 0x00#8 ∧ argField w = 0#16
  | .sum, w => opField w = 0x8#4 ∧ tselField w = 0#2 ∧ rsvField w = 0x00#8 ∧ argField w = 0#16
  | .blksz, w => opField w = 0x9#4 ∧ tselField w = 0#2 ∧ rsvField w = 0x00#8 ∧ argField w = 0#16
  | .size, w => opField w = 0xA#4 ∧ tselField w = 0#2 ∧ rsvField w = 0x00#8 ∧ argField w = 0#16

theorem match_iff_fieldsFit {r : Row} (hr : r ∈ opcodeRows) (w : Word) :
    w &&& r.mask = r.pattern ↔ FieldsFit r.mnemonic w := by
  have h2 (v : BitVec 2) : v &&& 3#2 = v := BitVec.and_allOnes
  have h4 (v : BitVec 4) : v &&& 15#4 = v := BitVec.and_allOnes
  have h8 (v : BitVec 8) : v &&& 255#8 = v := BitVec.and_allOnes
  have h16 (v : BitVec 16) : v &&& 65535#16 = v := BitVec.and_allOnes
  rw [and_eq_iff_fields]
  fin_cases hr
  all_goals simp [FieldsFit, opField, ctxField, tselField, rsvField, argField, h2, h4, h8, h16,
    and_two_eq_two_iff, and_high_eq_zero_iff]

theorem opField_mask : ∀ r ∈ opcodeRows, opField r.mask = BitVec.allOnes 4 := by
  decide

/-- Every row fixes `OP`. -/
theorem opField_of_match {r : Row} (hr : r ∈ opcodeRows) {w : Word} (h : w &&& r.mask = r.pattern) :
    opField w = opField r.pattern := by
  obtain ⟨ho, -⟩ := (and_eq_iff_fields _ _ _).1 h
  rwa [opField_mask r hr, BitVec.and_allOnes] at ho

theorem row_eq_of_opField_eq : ∀ r ∈ opcodeRows, ∀ q ∈ opcodeRows, opField r.pattern = opField q.pattern → r = q := by
  decide

/-- The rows are disjoint: no two have the same `OP`. -/
theorem row_unique {r q : Row} (hr : r ∈ opcodeRows) (hq : q ∈ opcodeRows) {w : Word}
    (h : w &&& r.mask = r.pattern) (h' : w &&& q.mask = q.pattern) : r = q :=
  row_eq_of_opField_eq r hr q hq ((opField_of_match hr h).symm.trans (opField_of_match hq h'))

/-! ## The decoder (30_encoding.md R75) -/

theorem decode_of_match {r : Row} (hr : r ∈ opcodeRows) {w : Word} (h : w &&& r.mask = r.pattern) :
    decode w = .legal (operation r.mnemonic w) := by
  cases hf : opcodeRows.find? (fun q => q.matches w) with
  | none => exact absurd h (by simpa [Row.matches] using List.find?_eq_none.1 hf r hr)
  | some q =>
    have hq : w &&& q.mask = q.pattern := by simpa [Row.matches] using List.find?_some hf
    obtain rfl := row_unique hr (List.mem_of_find?_eq_some hf) h hq
    simp [decode, hf]

theorem decode_of_no_match {w : Word} (h : ∀ r ∈ opcodeRows, w &&& r.mask ≠ r.pattern) : decode w = .illegal := by
  have hf : opcodeRows.find? (fun r => r.matches w) = none := by simpa [Row.matches] using h
  simp [decode, hf]

theorem decode_eq_illegal_iff (w : Word) : decode w = .illegal ↔ ∀ r ∈ opcodeRows, w &&& r.mask ≠ r.pattern :=
  ⟨fun h r hr hw => by simp [decode_of_match hr hw] at h, decode_of_no_match⟩

/-- A word that decodes to an operation matches the row that gives it. -/
theorem match_of_decode {w : Word} {i : Instr} (h : decode w = .legal i) :
    ∃ r ∈ opcodeRows, w &&& r.mask = r.pattern ∧ operation r.mnemonic w = i := by
  have hw : ¬ ∀ r ∈ opcodeRows, w &&& r.mask ≠ r.pattern := by simp [← decode_eq_illegal_iff, h]
  push Not at hw
  obtain ⟨r, hr, hm⟩ := hw
  exact ⟨r, hr, hm, by simpa [decode_of_match hr hm] using h⟩

end Sys2Proof
end

section
/-! PROOFS. O10: decoding is the row a word matches, and encoding is its inverse on the legal words. -/

namespace Sys2Proof

/-! ## An operand read from its field and put back (30_encoding.md R72) -/

theorem slotOperand_eq (w : Word) : slotOperand w = ((tselField w).extractLsb' 0 1).toFin := by
  have h : w.extractLsb' 24 1 = (w.extractLsb' 24 2).extractLsb' 0 1 := BitVec.eq_of_getLsbD_eq fun i hi => by
    simp [hi, show i < 2 by omega]
  rw [slotOperand, h]
  rfl

theorem byteOperand_eq (w : Word) : byteOperand w = (argField w).extractLsb' 0 8 := by
  rw [byteOperand, argField, BitVec.extractLsb'_extractLsb'_of_le (by omega)]

theorem slotBits_slotOperand {w : Word} (h : (tselField w).getLsbD 1 = true) :
    slotBits (slotOperand w) = tselField w := by
  rw [slotOperand_eq]
  generalize tselField w = t at h
  revert t; decide

theorem byteArg_byteOperand {w : Word} (h : (argField w).extractLsb' 8 8 = 0#8) :
    byteArg (byteOperand w) = argField w := by
  rw [byteOperand_eq, byteArg_low h]

/-! ## An operand put into its field and read back -/

@[simp] theorem ctxOperand_commandWord (o : BitVec 4) (c : Ctx) (t : BitVec 2) (a : U16) :
    ctxOperand (commandWord o (ctxBits c) t a) = c := by
  rw [ctxOperand, ctxField_commandWord]
  rfl

@[simp] theorem tabOperand_commandWord (o : BitVec 4) (c t : BitVec 2) (a : U16) :
    tabOperand (commandWord o c t a) = t :=
  tselField_commandWord o c t a

@[simp] theorem slotOperand_commandWord (o : BitVec 4) (c : BitVec 2) (k : Slot) (a : U16) :
    slotOperand (commandWord o c (slotBits k) a) = k := by
  rw [slotOperand_eq, tselField_commandWord]
  revert k; decide

@[simp] theorem polyOperand_commandWord (o : BitVec 4) (c t : BitVec 2) (a : U16) :
    polyOperand (commandWord o c t a) = a :=
  argField_commandWord o c t a

@[simp] theorem byteOperand_commandWord (o : BitVec 4) (c t : BitVec 2) (b : Byte) :
    byteOperand (commandWord o c t (byteArg b)) = b := by
  rw [byteOperand_eq, argField_commandWord]
  exact BitVec.extractLsb'_append_eq_right

/-! ## The two round trips (30_encoding.md R75) -/

/-- Every field of a row is either fixed or an operand, so the fields that fit a row are those of the word encoded
from their operands. -/
theorem encode_operation {m : Mnemonic} {w : Word} (h : FieldsFit m w) : encode (operation m w) = w := by
  rw [word_ext_iff]
  cases m with
  | build | mktab =>
    obtain ⟨ho, hc, ht, hv⟩ := h
    simp [operation, encode, ho, hc, hv, slotBits_slotOperand ht, polyOperand]
  | tread =>
    obtain ⟨ho, hc, hv, ha⟩ := h
    simp [operation, encode, ho, hc, hv, byteArg_byteOperand ha, tabOperand]
  | new =>
    obtain ⟨ho, hv, ha⟩ := h
    simp [operation, encode, ho, hv, ha, tabOperand, ctxBits, ctxOperand]
  | write =>
    obtain ⟨ho, ht, hv, ha⟩ := h
    simp [operation, encode, ho, ht, hv, byteArg_byteOperand ha, ctxBits, ctxOperand]
  | reset | sum16 | sum | blksz | size =>
    obtain ⟨ho, ht, hv, ha⟩ := h
    simp [operation, encode, ho, ht, hv, ha, ctxBits, ctxOperand]

open Laws.EncodeInRow in
/-- The word of an operation is in the row of its mnemonic. -/
theorem encodeInRow (i : Instr) : Statement i := by
  cases i with
  | build k p => exact build k p
  | mktab k p => exact mktab k p
  | tread t i => exact tread t i
  | new c t => exact new c t
  | reset c => exact reset c
  | write c b => exact write c b
  | sum16 c => exact sum16 c
  | sum c => exact sum c
  | blksz c => exact blksz c
  | size c => exact size c

open Laws.EncodeInRow in
theorem operation_encode (i : Instr) : operation (mnemonicOf i) (encode i) = i := by
  cases i <;> simp [mnemonicOf, operation, encode]

theorem encode_of_decode {w : Word} {i : Instr} (h : decode w = .legal i) : encode i = w := by
  obtain ⟨r, hr, hw, rfl⟩ := match_of_decode h
  exact encode_operation ((match_iff_fieldsFit hr w).1 hw)

theorem decode_encode (i : Instr) : decode (encode i) = .legal i := by
  obtain ⟨r, hr, hm, hw⟩ := encodeInRow i
  rw [decode_of_match hr (beq_iff_eq.1 hw), hm, operation_encode]

/-- Settles O10: the rows are disjoint, and each of their fields is either fixed or an operand. -/
theorem decodeAndEncodeAreInverse : Obligations.DecodeAndEncodeAreInverse :=
  ⟨fun _ _ hr h => decode_of_match hr h, fun _ h => decode_of_no_match h, fun _ _ h => encode_of_decode h,
    decode_encode⟩

end Sys2Proof
end

section
/-! PROOFS. O28: every word is answered by one response word of the one format. -/

namespace Sys2Proof.Machine

/-! ## The fields of a response word (30_encoding.md R76) -/

@[simp] theorem statusField_responseWord (st : Status) (v : U16) : statusField (responseWord st v) = st.code := by
  unfold statusField responseWord
  rw [BitVec.extractLsb'_append_eq_of_le (by omega)]
  exact BitVec.extractLsb'_append_eq_left

theorem zeroField_responseWord (st : Status) (v : U16) : (responseWord st v).extractLsb' 16 12 = 0x000#12 := by
  unfold responseWord
  rw [BitVec.extractLsb'_append_eq_of_le (by omega)]
  exact BitVec.extractLsb'_append_eq_right

@[simp] theorem valField_responseWord (st : Status) (v : U16) : valField (responseWord st v) = v :=
  BitVec.extractLsb'_append_eq_right (a := st.code ++ 0x000#12)

theorem Status.code_le (st : Status) : st.code ≤ 3#4 := by
  cases st <;> decide

theorem Status.code_eq_zero_iff (st : Status) : st.code = 0#4 ↔ st = .ok := by
  cases st <;> decide

/-! ## What a word is answered -/

theorem answered_respond {s u : State} (st : Status) (v : U16) (bs : List Byte) (hp : u.port = s.port)
    (hr : u.resets = s.resets) : Answered s (respond st v bs u) (responseWord st v) bs where
  rsp := by simp [hp]
  obyte := by simp [hp]
  cmd := by simp [hp]
  resets := by simp [hr]

/-- `t` answers what was decoded: `VAL` is 0 unless the status is OK, and only a SUM emits, two bytes. -/
def Responds (d : Verdict) (s t : State) : Prop :=
  ∃ st v bs, Answered s t (responseWord st v) bs ∧ (st ≠ .ok → v = 0x0000#16) ∧
    (bs = [] ∨ ∃ c, d = .legal (.sum c) ∧ bs.length = 2)

theorem responds_ok {d : Verdict} {s u : State} (v : U16) (hp : u.port = s.port) (hr : u.resets = s.resets) :
    Responds d s (respond .ok v [] u) :=
  ⟨_, _, _, answered_respond .ok v [] hp hr, fun h => absurd rfl h, .inl rfl⟩

theorem responds_refuse (d : Verdict) (st : Status) (s : State) : Responds d s (refuse st s) :=
  ⟨_, _, _, answered_respond st 0x0000#16 [] rfl rfl, fun _ => rfl, .inl rfl⟩

theorem responds_buildInto (d : Verdict) (k : Slot) (p : U16) (s : State) : Responds d s (buildInto k p s) := by
  cases h : inUse s k with
  | true => rw [buildInto_inuse p h]; exact responds_refuse d _ s
  | false => rw [buildInto_free p h]; exact responds_ok _ rfl rfl

theorem exec_responds (i : Instr) (s : State) : ∃ t, exec i s = .next t ∧ Responds (.legal i) s t := by
  cases i with
  | build k p => exact ⟨_, rfl, responds_buildInto _ k p s⟩
  | mktab k p =>
    simp only [exec, execMktab]
    split
    · exact ⟨_, rfl, responds_ok _ rfl rfl⟩
    · split
      · exact ⟨_, rfl, responds_ok _ rfl rfl⟩
      · exact ⟨_, rfl, responds_buildInto _ k p s⟩
  | tread n i =>
    simp only [exec, execTread]
    split
    · exact ⟨_, rfl, responds_refuse _ _ s⟩
    · exact ⟨_, rfl, responds_ok _ rfl rfl⟩
  | new c n =>
    simp only [exec, execNew]
    split
    · exact ⟨_, rfl, responds_refuse _ _ s⟩
    · exact ⟨_, rfl, responds_ok _ rfl rfl⟩
  | sum c =>
    exact ⟨_, rfl, _, _, _, answered_respond .ok _ (sumBytes [] (readCrc s c)) rfl rfl, fun h => absurd rfl h,
      .inr ⟨c, rfl, rfl⟩⟩
  | reset | write | sum16 | blksz | size => exact ⟨_, rfl, responds_ok _ rfl rfl⟩

theorem execWord_illegal {w : Word} (h : decode w = .illegal) (s : State) :
    execWord w s = .next (refuse .illegal s) := by
  simp [execWord, h]

theorem execWord_legal {w : Word} {i : Instr} (h : decode w = .legal i) (s : State) : execWord w s = exec i s := by
  simp [execWord, h]

theorem execWord_responds (w : Word) (s : State) : ∃ t, execWord w s = .next t ∧ Responds (decode w) s t := by
  cases hd : decode w with
  | legal i => rw [execWord_legal hd]; exact exec_responds i s
  | illegal => exact ⟨_, execWord_illegal hd s, responds_refuse _ _ s⟩

/-- Settles O28: every word is answered by one `respond`, whose response word has the format. -/
theorem responsesHaveTheOneFormat : Obligations.ResponsesHaveTheOneFormat := by
  intro w s
  obtain ⟨t, ht, st, v, bs, ha, hv, hbs⟩ := execWord_responds w s
  have hst : (responseWord st v).extractLsb' 28 4 = st.code := statusField_responseWord st v
  have hval : (responseWord st v).extractLsb' 0 16 = v := valField_responseWord st v
  refine ⟨t, responseWord st v, bs, ht, ha, ?_, zeroField_responseWord st v, ?_, hbs⟩
  · rw [hst]
    exact st.code_le
  · rw [hst, hval, ne_eq, Status.code_eq_zero_iff]
    exact hv

end Sys2Proof.Machine
end

section
/-! PROOFS. O13: the ILLEGAL words are those of the classes I1 to I8 (30_encoding.md R80). -/

namespace Sys2Proof

theorem forall_illegalClass {P : IllegalClass → Prop} :
    (∀ q, P q) ↔ P .i1 ∧ P .i2 ∧ P .i3 ∧ P .i4 ∧ P .i5 ∧ P .i6 ∧ P .i7 ∧ P .i8 :=
  ⟨fun h => ⟨h _, h _, h _, h _, h _, h _, h _, h _⟩, fun h q => by cases q <;> simp [h]⟩

/-- The fields fit a row when they have its `OP` and meet the condition of no class. -/
theorem fieldsFit_iff_no_class {r : Row} (hr : r ∈ opcodeRows) (w : Word) :
    FieldsFit r.mnemonic w ↔ opField w = opField r.pattern ∧ ∀ q : IllegalClass, q.condition w = false := by
  rw [forall_illegalClass]
  fin_cases hr
  all_goals
    simp only [FieldsFit]
    refine and_congr_right fun ho => ?_
    simp [IllegalClass.condition, ho, and_assoc, and_comm, and_left_comm]

/-- A word outside class I1 has the `OP` of some row. -/
theorem row_of_not_i1 {w : Word} (h : IllegalClass.i1.condition w = false) :
    ∃ r ∈ opcodeRows, opField w = opField r.pattern := by
  simp only [IllegalClass.condition] at h
  generalize opField w = o at h ⊢
  revert o; decide

theorem decode_eq_illegal_iff_class (w : Word) : decode w = .illegal ↔ ∃ q : IllegalClass, q.condition w = true := by
  have hrow {r : Row} (hr : r ∈ opcodeRows) := (match_iff_fieldsFit hr w).trans (fieldsFit_iff_no_class hr w)
  rw [decode_eq_illegal_iff]
  constructor
  · intro h
    by_contra hq
    have hq : ∀ q : IllegalClass, q.condition w = false := by simpa using hq
    obtain ⟨r, hr, ho⟩ := row_of_not_i1 (hq .i1)
    exact h r hr ((hrow hr).2 ⟨ho, hq⟩)
  · rintro ⟨q, hq⟩ r hr hm
    obtain ⟨-, hnone⟩ := (hrow hr).1 hm
    simp [hnone q] at hq

end Sys2Proof

namespace Sys2Proof.Machine

/-- Settles O13: a word is in no class exactly when it has the `OP` of a row and its fields fit that row; a word that
fits no row is refused, and a refusal only responds. -/
theorem illegalWordsAreTheEightClasses : Obligations.IllegalWordsAreTheEightClasses :=
  ⟨decode_eq_illegal_iff_class, fun _ s h =>
    ⟨_, execWord_illegal h s, rfl, answered_respond .illegal 0x0000#16 [] rfl rfl⟩⟩

end Sys2Proof.Machine
end

section
/-! PROOFS. O1, O2 and O3: the table entries as a function of the polynomial (40_table_builder.md R100 to R104,
R108). -/

namespace Sys2Proof.Machine

/-! ## The eight iterations (40_table_builder.md R100) -/

/-- A sequence whose first `m` steps are R100's is the iteration of its step, up to there. -/
theorem eq_iterate_shiftXor {p : U16} {x : Nat → U16} {m : Nat}
    (hx : ∀ n, 1 ≤ n → n ≤ m → x n = if (x (n - 1)).getLsbD 0 then (x (n - 1) >>> 1) ^^^ p else x (n - 1) >>> 1)
    {n : Nat} (hn : n ≤ m) : x n = (shiftXor p)^[n] (x 0) := by
  induction n with
  | zero => rfl
  | succ n ih =>
    have hstep : x (n + 1) = shiftXor p (x n) := hx (n + 1) (by omega) hn
    rw [hstep, ih (by omega), Function.iterate_succ_apply']

/-- Settles O1: the sequence is the iteration of `shiftXor`, and `Entry` is its eighth value. -/
theorem entryIsEightIterations : Obligations.EntryIsEightIterations := by
  refine ⟨fun p i x h0 hx => ?_, by decide⟩
  rw [eq_iterate_shiftXor hx le_rfl, h0]
  rfl

/-! ## Linear tables (40_table_builder.md R108) -/

theorem map_zero_of_map_xor {v w : Nat} {f : BitVec v → BitVec w} (hf : ∀ a b, f (a ^^^ b) = f a ^^^ f b) :
    f 0#v = 0#w := by
  have h : f 0#v = f 0#v ^^^ f 0#v := by rw [← hf, BitVec.xor_self]
  rwa [BitVec.xor_self] at h

/-- Two linear maps that agree on the first `n` powers of two agree where only the first `n` bits are set: the top
one of those bits can be split off. -/
theorem eq_of_map_xor_of_twoPow_lt {v w : Nat} {f g : BitVec v → BitVec w} (hf : ∀ a b, f (a ^^^ b) = f a ^^^ f b)
    (hg : ∀ a b, g (a ^^^ b) = g a ^^^ g b) {n : Nat} (h : ∀ j < n, f (BitVec.twoPow v j) = g (BitVec.twoPow v j))
    {i : BitVec v} (hi : ∀ j, n ≤ j → i.getLsbD j = false) : f i = g i := by
  induction n generalizing i with
  | zero =>
    obtain rfl : i = 0#v := BitVec.eq_of_getLsbD_eq fun j _ => by simp [hi j (Nat.zero_le j)]
    rw [map_zero_of_map_xor hf, map_zero_of_map_xor hg]
  | succ n ih =>
    have ih := @ih fun j hj => h j (by omega)
    cases hn : i.getLsbD n with
    | false =>
      refine ih fun j hj => ?_
      obtain rfl | hj := hj.eq_or_lt
      · exact hn
      · exact hi j hj
    | true =>
      have hnv : n < v := BitVec.lt_of_getLsbD hn
      have hlow : f (i ^^^ BitVec.twoPow v n) = g (i ^^^ BitVec.twoPow v n) := by
        refine ih fun j hj => ?_
        obtain rfl | hj := hj.eq_or_lt
        · simp [hn, hnv]
        · simp [hi j hj, hj.ne]
      have hsplit : i = (i ^^^ BitVec.twoPow v n) ^^^ BitVec.twoPow v n := by
        rw [BitVec.xor_assoc, BitVec.xor_self, BitVec.xor_zero]
      rw [hsplit, hf, hg, hlow, h n (by omega)]

/-- A linear map is fixed by its values at the powers of two. -/
theorem eq_of_map_xor_of_twoPow {v w : Nat} {f g : BitVec v → BitVec w} (hf : ∀ a b, f (a ^^^ b) = f a ^^^ f b)
    (hg : ∀ a b, g (a ^^^ b) = g a ^^^ g b) (h : ∀ j < v, f (BitVec.twoPow v j) = g (BitVec.twoPow v j))
    (i : BitVec v) : f i = g i :=
  eq_of_map_xor_of_twoPow_lt hf hg h fun _ hj => BitVec.getLsbD_of_ge _ _ hj

@[simp] theorem entry_zero (p : U16) : entry p 0x00#8 = 0x0000#16 :=
  map_zero_of_map_xor (entry_xor p)

/-- Seven shifts bring 0x0080 down to 0x0001, and the eighth iteration leaves the polynomial alone. -/
@[simp] theorem entry_high (p : U16) : entry p 0x80#8 = p := by
  have h7 : (shiftXor p)^[7] 0x0080#16 = 0x0001#16 := by simp [shiftXor]
  calc entry p 0x80#8
    _ = shiftXor p ((shiftXor p)^[7] 0x0080#16) := Function.iterate_succ_apply' (shiftXor p) 7 _
    _ = p := by simp [h7, shiftXor]

/-- The table of 0x0000 is 0 at the powers of two, and so everywhere. -/
theorem entry_zero_poly (i : Byte) : entry 0x0000#16 i = 0x0000#16 :=
  eq_of_map_xor_of_twoPow (g := fun _ => 0x0000#16) (entry_xor _) (fun _ _ => by simp) (by decide) i

/-- Settles O2: `Entry(p, ·)` is linear, and a linear map is fixed by its values at the powers of two. -/
theorem entryIsLinearAndRevealsPolynomial : Obligations.EntryIsLinearAndRevealsPolynomial :=
  ⟨entry_zero, entry_high, entry_xor, fun _ hT p h => eq_of_map_xor_of_twoPow hT (entry_xor p) h, entry_zero_poly,
    by decide +kernel⟩

/-! ## The cached tables (40_table_builder.md R103, R104) -/

theorem tableFor_eq_buildTable (p : U16) : tableFor p = buildTable p := by
  unfold tableFor
  split
  case isTrue h => rw [h, cachedAnsi]
  case isFalse =>
    split
    case isTrue h => rw [h, cachedCcitt]
    case isFalse => rfl

/-- Settles O3: the cached tables are the tables of the two constants. -/
theorem tableForAgreesWithBuildTable : Obligations.TableForAgreesWithBuildTable :=
  ⟨tableFor_eq_buildTable _, tableFor_eq_buildTable _, rfl, rfl, tableFor_eq_buildTable⟩

end Sys2Proof.Machine
end

section
/-! PROOFS. A word put together from a row's match value and operand bits is the command word of the fields
(30_encoding.md R71, R74). -/

namespace Sys2Proof

theorem commandWord_or (o o' : BitVec 4) (c c' t t' : BitVec 2) (a a' : U16) :
    commandWord o c t a ||| commandWord o' c' t' a' = commandWord (o ||| o') (c ||| c') (t ||| t') (a ||| a') := by
  show (o ++ c ++ t ++ 0x00#8 ++ a) ||| (o' ++ c' ++ t' ++ 0x00#8 ++ a') = _
  rw [BitVec.or_append, BitVec.or_append, BitVec.or_append, BitVec.or_append, BitVec.or_self]
  rfl

theorem ctx_shiftLeft_eq_commandWord (c : BitVec 2) : c.setWidth 32 <<< 26 = commandWord 0#4 c 0#2 0#16 := by
  revert c; decide

theorem tsel_shiftLeft_eq_commandWord (t : BitVec 2) : t.setWidth 32 <<< 24 = commandWord 0#4 0#2 t 0#16 := by
  revert t; decide

theorem setWidth_eq_commandWord (a : U16) : a.setWidth 32 = commandWord 0#4 0#2 0#2 a :=
  BitVec.setWidth_eq_append (by omega)

theorem setWidth_eq_byteArg (b : Byte) : b.setWidth 16 = byteArg b :=
  BitVec.setWidth_eq_append (by omega)

end Sys2Proof

namespace Sys2Proof.Machine

/-- A match value that is a command word takes operand bits into its fields. -/
theorem rowWord_commandWord (o : BitVec 4) (c c' t t' : BitVec 2) (a a' : U16) :
    rowWord (commandWord o c t a) c' t' a' = commandWord o (c ||| c') (t ||| t') (a ||| a') := by
  rw [rowWord, ctx_shiftLeft_eq_commandWord, tsel_shiftLeft_eq_commandWord, setWidth_eq_commandWord]
  simp [commandWord_or]

theorem two_or_slot (k : Slot) : 2#2 ||| BitVec.ofNat 2 k.val = slotBits k := by
  revert k; decide

theorem rowWord_build (k : Slot) (p : U16) :
    rowWord 0x12000000#32 0#2 (BitVec.ofNat 2 k.val) p = encode (.build k p) := by
  show rowWord (commandWord 0x1#4 0#2 2#2 0#16) _ _ _ = _
  simp [rowWord_commandWord, two_or_slot, encode]

theorem rowWord_mktab (k : Slot) (p : U16) :
    rowWord 0x22000000#32 0#2 (BitVec.ofNat 2 k.val) p = encode (.mktab k p) := by
  show rowWord (commandWord 0x2#4 0#2 2#2 0#16) _ _ _ = _
  simp [rowWord_commandWord, two_or_slot, encode]

theorem rowWord_tread (n : TabNo) (i : Byte) :
    rowWord 0x30000000#32 0#2 n (i.setWidth 16) = encode (.tread n i) := by
  show rowWord (commandWord 0x3#4 0#2 0#2 0#16) _ _ _ = _
  simp [rowWord_commandWord, setWidth_eq_byteArg, encode]

end Sys2Proof.Machine
end

section
/-! PROOFS. O17, O18 and O19: BUILD, MKTAB and TREAD (40_table_builder.md R105 to R107). -/

namespace Sys2Proof.Machine

/-! ## A build (40_table_builder.md R105) -/

/-- From `s` to `t` the block built the table of `p` into slot `k`, and did nothing else. -/
structure BuildCompletes (k : Slot) (p : U16) (s t : State) : Prop where
  table : ∀ a : BitVec 10, addrTab a = slotTab k → t.block.tab.read a = some (entry p (addrIndex a))
  otherTables : ∀ a : BitVec 10, addrTab a ≠ slotTab k → t.block.tab.read a = s.block.tab.read a
  uv : readUv t k = true
  otherUv : ∀ k' : Slot, k' ≠ k → readUv t k' = readUv s k'
  contexts : SameContexts s t
  answered : Answered s t (BitVec.ofNat 32 (2 + k.val)) []

theorem responseWord_slotTab (k : Slot) :
    responseWord .ok ((slotTab k).setWidth 16) = BitVec.ofNat 32 (2 + k.val) := by
  revert k; decide

theorem buildInto_completes {s : State} {k : Slot} (p : U16) (h : ∀ c : Ctx, readTref s c ≠ slotTab k) :
    BuildCompletes k p s (buildInto k p s) := by
  have hfree : inUse s k = false := by
    rw [Bool.eq_false_iff, ne_eq, inUse_iff]
    exact fun ⟨c, hc⟩ => h c hc
  rw [buildInto_free p hfree]
  exact {
    table := fun a ha => by simp [Memory.read_fill, ha, buildTable]
    otherTables := fun a ha => by simp [Memory.read_fill, ha]
    uv := by simp
    otherUv := fun k' hk => by simp [hk.symm]
    contexts := ⟨fun _ => rfl, fun _ => rfl⟩
    answered := responseWord_slotTab k ▸ answered_respond .ok ((slotTab k).setWidth 16) [] rfl rfl }

/-- The slot built holds the table of `p`. -/
theorem BuildCompletes.holdsTable {k : Slot} {p : U16} {s t : State} (h : BuildCompletes k p s t) :
    HoldsTable t (slotTab k) p := fun i => by
  simpa using h.table (entryAddr (slotTab k) i) (addrTab_entryAddr _ _)

/-- A refusal changes nothing and answers its status. -/
theorem refuse_spec (st : Status) (s : State) :
    (refuse st s).block = s.block ∧ Answered s (refuse st s) (responseWord st 0x0000#16) [] :=
  ⟨rfl, answered_respond st 0x0000#16 [] rfl rfl⟩

theorem buildInto_refuses {s : State} {k : Slot} (p : U16) (h : ∃ c : Ctx, readTref s c = slotTab k) :
    (buildInto k p s).block = s.block ∧ Answered s (buildInto k p s) 0x30000000#32 [] := by
  rw [buildInto_inuse p ((inUse_iff s k).2 h)]
  exact refuse_spec .inuse s

theorem exec_build (k : Slot) (p : U16) (s : State) : exec (.build k p) s = .next (buildInto k p s) := rfl

/-- Settles O17: the build fills the slot and its `UV` bit when no context holds it, and is refused otherwise. -/
theorem buildFillsFreeSlotOrAnswersInuse : Obligations.BuildFillsFreeSlotOrAnswersInuse := by
  intro k p s
  refine ⟨by rw [rowWord_build, decode_encode], fun hfree => ?_, fun hheld => ?_⟩
  · have h := buildInto_completes p hfree
    refine ⟨_, exec_build k p s, h.table, h.otherTables, h.uv, h.otherUv, h.contexts, h.answered, ?_⟩
    rintro rfl i
    exact tabRead_of_read (h.holdsTable i)
  · exact ⟨_, exec_build k p s, buildInto_refuses p hheld⟩

/-! ## MKTAB (40_table_builder.md R106) -/

theorem exec_mktab_ansi (k : Slot) (s : State) :
    exec (.mktab k 0x8005#16) s = .next (respond .ok 0x0000#16 [] s) := rfl

theorem exec_mktab_ccitt (k : Slot) (s : State) :
    exec (.mktab k 0x1021#16) s = .next (respond .ok 0x0001#16 [] s) := rfl

theorem exec_mktab_unnamed {p : U16} (ha : p ≠ 0x8005#16) (hc : p ≠ 0x1021#16) (k : Slot) (s : State) :
    exec (.mktab k p) s = .next (buildInto k p s) :=
  (if_neg ha).trans (if_neg hc)

/-- Settles O18: a named polynomial is only answered, and any other one is built as by BUILD. -/
theorem mktabNamesCachedTableOrBuilds : Obligations.MktabNamesCachedTableOrBuilds := by
  intro k p s
  refine ⟨by rw [rowWord_mktab, decode_encode], ?ansi, ?ccitt, fun ha hc => ?unnamed⟩
  case ansi =>
    rintro rfl
    exact ⟨_, exec_mktab_ansi k s, rfl, answered_respond .ok 0x0000#16 [] rfl rfl⟩
  case ccitt =>
    rintro rfl
    exact ⟨_, exec_mktab_ccitt k s, rfl, answered_respond .ok 0x0001#16 [] rfl rfl⟩
  case unnamed =>
    have hexec := exec_mktab_unnamed ha hc k s
    refine ⟨hexec, fun hfree => ?_, fun hheld => ⟨_, hexec, buildInto_refuses p hheld⟩⟩
    obtain ⟨htab, hother, huv, hotherUv, hctx, hans⟩ := buildInto_completes p hfree
    exact ⟨_, hexec, htab, hother, huv, hotherUv, hctx, hans⟩

/-! ## TREAD (40_table_builder.md R107) -/

theorem responseWord_ok (v : U16) : responseWord .ok v = 0x0000#16 ++ v := rfl

/-- A table is there when it is cached or its slot is built. -/
theorem notBuilt_eq_false_iff (s : State) (n : TabNo) :
    notBuilt s n = false ↔ ∀ k : Slot, n = slotTab k → readUv s k = true := by
  rw [Bool.eq_false_iff, ne_eq, notBuilt_iff]
  simp

theorem exec_tread_there {s : State} {n : TabNo} (h : notBuilt s n = false) (i : Byte) :
    exec (.tread n i) s = .next (respond .ok (tabRead s n i) [] s) := by
  simp [exec, execTread, h]

theorem exec_tread_notBuilt {s : State} {n : TabNo} (h : notBuilt s n = true) (i : Byte) :
    exec (.tread n i) s = .next (refuse .notable s) := by
  simp [exec, execTread, h]

/-- Settles O19: a table that is there is read, and a read of one held from `p` gives `Entry(p, i)`. -/
theorem treadAnswersEntryOrNotable : Obligations.TreadAnswersEntryOrNotable := by
  intro n i s
  refine ⟨by rw [rowWord_tread, decode_encode], fun hthere => ?_, fun hnot => ?_⟩
  · refine ⟨_, exec_tread_there ((notBuilt_eq_false_iff s n).2 hthere) i, rfl, ?_, fun p hp => ?_⟩
    · rw [← responseWord_ok]
      exact answered_respond .ok _ [] rfl rfl
    · have hread : tabRead s n i = entry p i := tabRead_of_read (hp i)
      rw [hread]
      exact ⟨rfl, fun hi => by rw [hi, entry_zero], fun hi => by rw [hi, entry_high]⟩
  · exact ⟨_, exec_tread_notBuilt ((notBuilt_iff s n).2 hnot) i, refuse_spec .notable s⟩

end Sys2Proof.Machine
end

section
/-! PROOFS. O4, O5 and O6: the arithmetic of a digest (41_digest_engine.md R130 to R135). -/

namespace Sys2Proof.Machine

/-! ## The bytes of a 16-bit value (00_scope.md R9) -/

theorem lowByte_eq_setWidth (v : U16) : lowByte v = v.setWidth 8 :=
  BitVec.setWidth_eq_extractLsb' (by omega) |>.symm

theorem highByte_eq_setWidth (v : U16) : highByte v = (v >>> 8).setWidth 8 :=
  BitVec.setWidth_ushiftRight_eq_extractLsb.symm

theorem highByte_append_lowByte (v : U16) : highByte v ++ lowByte v = v := by
  rw [highByte, lowByte, BitVec.extractLsb'_append_extractLsb'_eq_extractLsb' (by omega)]
  exact BitVec.extractLsb'_eq_self

/-! ## `Step` and `Update` (41_digest_engine.md R130, R131) -/

theorem foldByte_eq (T : Table) (x : U16) (b : Byte) : foldByte T x b = T (x.setWidth 8 ^^^ b) ^^^ (x >>> 8) := by
  rw [foldByte, lowByte_eq_setWidth]

theorem not_eq_xor_ones (x : U16) : ~~~x = x ^^^ 0xFFFF#16 :=
  BitVec.xor_allOnes.symm

/-- A sequence whose steps fold the bytes one after another is the fold, where the bytes end. -/
theorem foldl_foldByte_eq {T : Table} {data : List Byte} {x : Nat → U16}
    (hx : ∀ (j : Nat) (h : j < data.length), x (j + 1) = foldByte T (x j) data[j]) :
    data.foldl (foldByte T) (x 0) = x data.length := by
  induction data generalizing x with
  | nil => rfl
  | cons b data ih =>
    have hfirst : x 1 = foldByte T (x 0) b := hx 0 (Nat.zero_lt_succ _)
    rw [List.foldl_cons, ← hfirst]
    exact ih (x := fun j => x (j + 1)) fun j h => hx (j + 1) (Nat.succ_lt_succ h)

/-- Settles O4: the sequence is the fold of `Step`, and the two complements are those of `Update`. -/
theorem updateFoldsBytesInOrder : Obligations.UpdateFoldsBytesInOrder := by
  refine ⟨foldByte_eq, fun crc T data x h0 hx => ?_, by decide, by decide⟩
  have hfold := foldl_foldByte_eq (T := T) fun j h => (hx j h).trans (foldByte_eq T (x j) data[j]).symm
  rw [update, not_eq_xor_ones crc, ← h0, hfold, not_eq_xor_ones]

/-! ## Chaining (41_digest_engine.md R132, R133) -/

@[simp] theorem update_nil (crc : U16) (T : Table) : update crc T [] = crc :=
  BitVec.not_not

/-- The complement that begins the second update undoes the one that ends the first. -/
theorem update_update (crc : U16) (T : Table) (a b : List Byte) :
    update (update crc T a) T b = update crc T (a ++ b) := by
  simp only [update, BitVec.not_not, List.foldl_append]

theorem foldl_update_singleton (crc : U16) (T : Table) (data : List Byte) :
    data.foldl (fun v b => update v T [b]) crc = update crc T data := by
  induction data generalizing crc with
  | nil => exact (update_nil crc T).symm
  | cons b data ih => rw [List.foldl_cons, ih, update_update, List.singleton_append]

/-- Settles O5, by the chaining of two updates. -/
theorem updateChains : Obligations.UpdateChains :=
  ⟨update_nil, update_update, foldl_update_singleton, fun T => update_nil 0x0000#16 T⟩

/-! ## One byte (41_digest_engine.md R135) -/

theorem update_singleton (crc : U16) (T : Table) (b : Byte) :
    update crc T [b] = ~~~(T ((~~~crc).setWidth 8 ^^^ b) ^^^ ((~~~crc) >>> 8)) :=
  congrArg (~~~·) (foldByte_eq T (~~~crc) b)

theorem setWidth_not_xor (crc : U16) (b : Byte) : (~~~crc).setWidth 8 ^^^ b = crc.setWidth 8 ^^^ b ^^^ 0xFF#8 := by
  rw [not_eq_xor_ones, BitVec.setWidth_xor, BitVec.xor_assoc, BitVec.xor_assoc, BitVec.xor_comm b]
  rfl

theorem not_ushiftRight_eight (crc : U16) : (~~~crc) >>> 8 = (crc >>> 8) ^^^ 0x00FF#16 := by
  rw [not_eq_xor_ones, BitVec.ushiftRight_xor_distrib]
  rfl

/-- The form with no complement: the constants of the two complements meet in 0xFF00. -/
theorem update_singleton_eq_xor (crc : U16) (T : Table) (b : Byte) :
    update crc T [b] = T (crc.setWidth 8 ^^^ b ^^^ 0xFF#8) ^^^ (crc >>> 8) ^^^ 0xFF00#16 := by
  rw [update_singleton, setWidth_not_xor, not_ushiftRight_eight, not_eq_xor_ones, ← BitVec.xor_assoc, BitVec.xor_assoc]
  rfl

/-- Settles O6: the second spelling is the first with the complements moved out. -/
theorem oneByteUpdateForm : Obligations.OneByteUpdateForm :=
  fun crc T b => ⟨update_singleton crc T b, update_singleton_eq_xor crc T b⟩

end Sys2Proof.Machine
end

section
/-! PROOFS. The words of the operations that name a context, put together from their row's match value and operand
bits (30_encoding.md R71, R74). -/

namespace Sys2Proof.Machine

theorem ofNat_ctx (c : Ctx) : BitVec.ofNat 2 c.val = ctxBits c := by
  revert c; decide

/-- A match value that is all zeros but for `OP` takes the context, the table number and the argument whole. -/
theorem rowWord_context (o : BitVec 4) (c : Ctx) (t : BitVec 2) (a : U16) :
    rowWord (commandWord o 0#2 0#2 0#16) (BitVec.ofNat 2 c.val) t a = commandWord o (ctxBits c) t a := by
  rw [rowWord_commandWord, ofNat_ctx, BitVec.zero_or, BitVec.zero_or, BitVec.zero_or]

theorem rowWord_new (c : Ctx) (n : TabNo) :
    rowWord 0x40000000#32 (BitVec.ofNat 2 c.val) n 0#16 = encode (.new c n) :=
  rowWord_context 0x4#4 c n 0#16

theorem rowWord_reset (c : Ctx) : rowWord 0x50000000#32 (BitVec.ofNat 2 c.val) 0#2 0#16 = encode (.reset c) :=
  rowWord_context 0x5#4 c 0#2 0#16

theorem rowWord_write (c : Ctx) (b : Byte) :
    rowWord 0x60000000#32 (BitVec.ofNat 2 c.val) 0#2 (b.setWidth 16) = encode (.write c b) := by
  rw [setWidth_eq_byteArg]
  exact rowWord_context 0x6#4 c 0#2 (byteArg b)

theorem rowWord_sum16 (c : Ctx) : rowWord 0x70000000#32 (BitVec.ofNat 2 c.val) 0#2 0#16 = encode (.sum16 c) :=
  rowWord_context 0x7#4 c 0#2 0#16

theorem rowWord_sum (c : Ctx) : rowWord 0x80000000#32 (BitVec.ofNat 2 c.val) 0#2 0#16 = encode (.sum c) :=
  rowWord_context 0x8#4 c 0#2 0#16

theorem rowWord_blksz (c : Ctx) : rowWord 0x90000000#32 (BitVec.ofNat 2 c.val) 0#2 0#16 = encode (.blksz c) :=
  rowWord_context 0x9#4 c 0#2 0#16

theorem rowWord_size (c : Ctx) : rowWord 0xA0000000#32 (BitVec.ofNat 2 c.val) 0#2 0#16 = encode (.size c) :=
  rowWord_context 0xA#4 c 0#2 0#16

end Sys2Proof.Machine
end

section
/-! PROOFS. O7 and O20 to O26: the operations on a digest, each from every state (41_digest_engine.md R137, R141 to
R147). -/

namespace Sys2Proof.Machine

/-! ## A register written with what it holds -/

theorem writeCrc_self {s : State} {c : Ctx} {v : U16} (h : readCrc s c = v) : writeCrc s c v = s := by
  subst h
  simp [writeCrc, readCrc]

theorem writeTref_self {s : State} {c : Ctx} {n : TabNo} (h : readTref s c = n) : writeTref s c n = s := by
  subst h
  simp [writeTref, readTref]

/-! ## What each operation does, one equation per case -/

theorem exec_new_there {s : State} {n : TabNo} (h : notBuilt s n = false) (c : Ctx) :
    exec (.new c n) s = .next (respond .ok 0x0000#16 [] (writeTref (writeCrc s c 0x0000#16) c n)) := by
  simp [exec, execNew, h]

theorem exec_new_notBuilt {s : State} {n : TabNo} (h : notBuilt s n = true) (c : Ctx) :
    exec (.new c n) s = .next (refuse .notable s) := by
  simp [exec, execNew, h]

theorem exec_reset (c : Ctx) (s : State) :
    exec (.reset c) s = .next (respond .ok 0x0000#16 [] (writeCrc s c 0x0000#16)) := rfl

theorem exec_write (c : Ctx) (b : Byte) (s : State) :
    exec (.write c b) s = .next (respond .ok 0x0001#16 []
      (writeCrc s c (update (readCrc s c) (tableAt s (readTref s c)) [b]))) := rfl

theorem exec_sum16 (c : Ctx) (s : State) : exec (.sum16 c) s = .next (respond .ok (readCrc s c) [] s) := rfl

theorem exec_sum (c : Ctx) (s : State) :
    exec (.sum c) s = .next (respond .ok 0x0000#16 [highByte (readCrc s c), lowByte (readCrc s c)] s) := rfl

theorem exec_blksz (c : Ctx) (s : State) : exec (.blksz c) s = .next (respond .ok 0x0001#16 [] s) := rfl

theorem exec_size (c : Ctx) (s : State) : exec (.size c) s = .next (respond .ok 0x0002#16 [] s) := rfl

/-- NEW with the table the context already has is RESET. -/
theorem exec_new_present {s : State} {c : Ctx} (h : notBuilt s (readTref s c) = false) :
    exec (.new c (readTref s c)) s = exec (.reset c) s := by
  rw [exec_new_there h, exec_reset, writeTref_self (readTref_writeCrc s c c _)]

/-! ## NEW (41_digest_engine.md R141) -/

/-- Settles O20: the fresh digest's two registers are all that a NEW writes, and a NEW refused writes none. -/
theorem newStartsFreshDigestOrAnswersNotable : Obligations.NewStartsFreshDigestOrAnswersNotable := by
  intro c n s
  refine ⟨by rw [rowWord_new, decode_encode], fun hthere => ?_, fun hnot => ?_⟩
  · have hn := (notBuilt_eq_false_iff s n).2 hthere
    refine ⟨_, exec_new_there hn c, by simp, by simp, fun c' hc => ?_, ⟨fun _ => rfl, fun _ => rfl⟩,
      answered_respond .ok _ _ rfl rfl, ?_, fun k hk hothers c' => ?_⟩
    · simp [hc.symm]
    · rintro rfl
      rw [← exec_new_present hn, exec_new_there hn]
    · rw [readTref_respond, readTref_writeTref]
      split
      · exact hk
      · next hc => exact hothers c' (Ne.symm hc)
  · exact ⟨_, exec_new_notBuilt ((notBuilt_iff s n).2 hnot) c, refuse_spec .notable s⟩

/-! ## RESET (41_digest_engine.md R142) -/

/-- Settles O21: the crc is all that a RESET writes. -/
theorem resetClearsCrcKeepsTableReference : Obligations.ResetClearsCrcKeepsTableReference := by
  intro c s
  refine ⟨by rw [rowWord_reset, decode_encode], _, exec_reset c s, by simp, fun c' hc => by simp [hc.symm],
    fun _ => rfl, ⟨fun _ => rfl, fun _ => rfl⟩, answered_respond .ok _ _ rfl rfl, fun h0 => ?_,
    ⟨_, exec_reset c _, ?_⟩, fun hthere => ?_⟩
  · rw [writeCrc_self h0, respond_block]
  · rw [respond_block, writeCrc_self (by simp)]
  · rw [exec_new_present ((notBuilt_eq_false_iff s _).2 hthere), exec_reset]

/-! ## WRITE (41_digest_engine.md R143) -/

/-- The crc 0xFFFF is a fixed point of byte 0x00 with a table whose entry 0x00 is 0. -/
theorem update_ones_zero {T : Table} (h : T 0x00#8 = 0x0000#16) : update 0xFFFF#16 T [0x00#8] = 0xFFFF#16 := by
  show ~~~(T 0x00#8 ^^^ 0x0000#16) = 0xFFFF#16
  rw [h]
  rfl

/-- Settles O22: the crc is all that a WRITE writes. -/
theorem writeFoldsOneByte : Obligations.WriteFoldsOneByte := by
  intro c b s
  refine ⟨by rw [rowWord_write, decode_encode], _, exec_write c b s, by simp, fun c' hc => by simp [hc.symm],
    fun _ => rfl, ⟨fun _ => rfl, fun _ => rfl⟩, answered_respond .ok _ _ rfl rfl, ?_⟩
  rintro hcrc rfl hentry
  have hfixed : update 0xFFFF#16 (tableAt s (readTref s c)) [0x00#8] = 0xFFFF#16 := update_ones_zero hentry
  simp [hcrc, hfixed]

/-! ## SUM16 (41_digest_engine.md R144) -/

theorem sum16_answers (c : Ctx) (s : State) :
    ∃ t, exec (.sum16 c) s = .next t ∧ Answered s t (0x0000#16 ++ readCrc s c) [] :=
  ⟨_, exec_sum16 c s, answered_respond .ok _ _ rfl rfl⟩

theorem sum16_answers_zero {c : Ctx} {s : State} (h : readCrc s c = 0x0000#16) :
    ∃ t, exec (.sum16 c) s = .next t ∧ Answered s t 0x00000000#32 [] := by
  have hs := sum16_answers c s
  rwa [h] at hs

theorem sum16_answers_zero_after {i : Instr} {s t : State} {c : Ctx} (h : exec i s = .next t)
    (h0 : readCrc t c = 0x0000#16) :
    ∃ t u, exec i s = .next t ∧ exec (.sum16 c) t = .next u ∧ Answered t u 0x00000000#32 [] := by
  obtain ⟨u, hu, ha⟩ := sum16_answers_zero h0
  exact ⟨t, u, h, hu, ha⟩

theorem readCrc_reset (c : Ctx) : readCrc State.reset c = 0x0000#16 := by
  revert c; decide

/-- Settles O23: a SUM16 answers the crc that stands, which is 0 after each of the three. -/
theorem sum16AnswersCrc : Obligations.Sum16AnswersCrc := by
  refine ⟨fun c s => ?_, fun c => sum16_answers_zero (readCrc_reset c), fun c s => ?_, fun c n s hthere => ?_⟩
  · refine ⟨by rw [rowWord_sum16, decode_encode], _, exec_sum16 c s, rfl, answered_respond .ok _ _ rfl rfl,
      fun b => ⟨_, _, exec_write c b _, exec_write c b s, ?_⟩⟩
    simp only [readCrc_respond, readCrc_writeCrc, if_true]
    rfl
  · exact sum16_answers_zero_after (exec_reset c s) (by simp)
  · exact sum16_answers_zero_after (exec_new_there ((notBuilt_eq_false_iff s n).2 hthere) c) (by simp)

/-! ## SUM (41_digest_engine.md R137, R145) -/

theorem sum_answers (c : Ctx) (s : State) : ∃ t, exec (.sum c) s = .next t ∧ t.block = s.block ∧
    Answered s t 0x00000000#32 [highByte (readCrc s c), lowByte (readCrc s c)] :=
  ⟨_, exec_sum c s, rfl, answered_respond .ok _ _ rfl rfl⟩

theorem sumBytes_eq (pre : List Byte) (v : U16) : sumBytes pre v = pre ++ [(v >>> 8).setWidth 8, v.setWidth 8] := by
  rw [sumBytes, highByte_eq_setWidth, lowByte_eq_setWidth]

/-- Settles O7: the prefix is not looked at, and a SUM emits the two bytes that follow it. -/
theorem sumBytesIsPrefixThenBigEndian : Obligations.SumBytesIsPrefixThenBigEndian := by
  refine ⟨fun pre v => ⟨sumBytes_eq pre v, List.length_append, List.take_left⟩, fun c s => ?_⟩
  obtain ⟨t, ht, -, ha⟩ := sum_answers c s
  exact ⟨t, ht, ha, fun _ => rfl⟩

/-- Settles O24: the two bytes of a SUM, put together, are the crc that a SUM16 answers. -/
theorem sumEmitsCrcBigEndian : Obligations.SumEmitsCrcBigEndian := by
  intro c s
  obtain ⟨t, ht, hb, ha⟩ := sum_answers c s
  refine ⟨by rw [rowWord_sum, decode_encode], t, ht, hb, _, _, ha, rfl, rfl, ?_⟩
  rw [highByte_append_lowByte]
  exact sum16_answers c s

/-! ## BLKSZ and SIZE (41_digest_engine.md R146, R147) -/

/-- Settles O25: the answer is `BLOCK_SIZE`, whatever the state. -/
theorem blkszAnswersOne : Obligations.BlkszAnswersOne := fun c s =>
  ⟨by rw [rowWord_blksz, decode_encode], _, exec_blksz c s, rfl, answered_respond .ok _ _ rfl rfl⟩

/-- Settles O26: the answer is `CHECKSUM_SIZE_BYTES`, whatever the state, and a SUM emits two bytes. -/
theorem sizeAnswersTwo : Obligations.SizeAnswersTwo := by
  intro c s
  obtain ⟨u, hu, -, ha⟩ := sum_answers c s
  exact ⟨by rw [rowWord_size, decode_encode], _, exec_size c s, rfl, answered_respond .ok _ _ rfl rfl,
    u, _, hu, ha, rfl⟩

end Sys2Proof.Machine
end

section
/-! PROOFS. O41 and O43: what words do to the digest of a context, whatever they do to the others
(41_digest_engine.md R148, R150). -/

namespace Sys2Proof.Machine

/-! ## The crc of a context after an operation -/

@[simp] theorem readCrc_buildInto (k : Slot) (p : U16) (s : State) (c : Ctx) :
    readCrc (buildInto k p s) c = readCrc s c := by
  cases h : inUse s k with
  | true => rw [buildInto_inuse p h]; rfl
  | false => rw [buildInto_free p h]; rfl

/-- Only NEW, RESET and WRITE of `c` write `CRC[c]` (10_state.md R21). -/
theorem exec_readCrc {i : Instr} {s t : State} {c : Ctx} (h : exec i s = .next t) (hnew : ∀ n, i ≠ .new c n)
    (hreset : i ≠ .reset c) (hwrite : ∀ b, i ≠ .write c b) : readCrc t c = readCrc s c := by
  cases i with
  | build k p => cases h; simp
  | mktab k p =>
    simp only [exec, execMktab] at h
    split at h
    · cases h; rfl
    · split at h <;> cases h <;> simp
  | tread n i =>
    simp only [exec, execTread] at h
    split at h <;> cases h <;> rfl
  | new c' n =>
    have hc : c' ≠ c := fun e => hnew n (by rw [e])
    cases hn : notBuilt s n with
    | true => cases (exec_new_notBuilt hn c').symm.trans h; rfl
    | false => cases (exec_new_there hn c').symm.trans h; simp [hc]
  | reset c' =>
    have hc : c' ≠ c := fun e => hreset (by rw [e])
    cases h; simp [hc]
  | write c' b =>
    have hc : c' ≠ c := fun e => hwrite b (by rw [e])
    cases h; simp [hc]
  | sum16 | sum | blksz | size => cases h; rfl

/-! ## The bytes that words write to a context (41_digest_engine.md R148) -/

theorem restarts_eq_false {c : Ctx} {w : Word} {i : Instr} (h : restarts c w = false) (hd : decode w = .legal i) :
    (∀ n, i ≠ .new c n) ∧ i ≠ .reset c := by
  constructor
  · rintro n rfl; simp [restarts, hd] at h
  · rintro rfl; simp [restarts, hd] at h

theorem byteTo_write {c : Ctx} {w : Word} {b : Byte} (hd : decode w = .legal (.write c b)) : byteTo c w = some b := by
  simp [byteTo, hd]

theorem byteTo_eq_none {c : Ctx} {w : Word} (h : ∀ b, decode w ≠ .legal (.write c b)) : byteTo c w = none := by
  unfold byteTo
  split
  · next c' b hd =>
    have hc : c' ≠ c := fun e => h b (by rw [hd, e])
    simp [hc]
  · rfl

theorem writtenTo_cons (c : Ctx) (w : Word) (ws : List Word) :
    writtenTo c (w :: ws) = (byteTo c w).toList ++ writtenTo c ws := by
  cases h : byteTo c w <;> simp [writtenTo, h]

/-- From `s` to `t` the bytes of `data` went into the digest that context `c` holds, over a table that stayed. -/
structure Digests (c : Ctx) (data : List Byte) (s t : State) : Prop where
  crc : readCrc t c = update (readCrc s c) (tableAt s (readTref s c)) data
  tref : readTref t c = readTref s c
  table : tableAt t (readTref s c) = tableAt s (readTref s c)

theorem Digests.refl (c : Ctx) (s : State) : Digests c [] s s :=
  ⟨(update_nil _ _).symm, rfl, rfl⟩

theorem Digests.trans {c : Ctx} {a b : List Byte} {s t u : State} (h : Digests c a s t) (h' : Digests c b t u) :
    Digests c (a ++ b) s u where
  crc := by rw [h'.crc, h.tref, h.table, h.crc, update_update]
  tref := h'.tref.trans h.tref
  table := by
    have ht := h'.table
    rw [h.tref] at ht
    exact ht.trans h.table

/-- The table that a context refers to has the same value after an operation. -/
theorem Answer.tableAt_referenced {s t : State} (h : Answer s t) (c : Ctx) :
    tableAt t (readTref s c) = tableAt s (readTref s c) :=
  funext fun i => tabRead_congr h.resets _ i (h.change.read_referenced c i)

/-- An operation that does not start `c` again puts its byte, if it writes one to `c`, into the digest of `c`. -/
theorem execWord_digests {c : Ctx} {w : Word} {s t : State} (hw : restarts c w = false)
    (h : execWord w s = .next t) : Digests c (byteTo c w).toList s t := by
  cases hd : decode w with
  | illegal =>
    cases (execWord_illegal hd s).symm.trans h
    rw [byteTo_eq_none (by simp [hd])]
    exact ⟨(update_nil _ _).symm, rfl, rfl⟩
  | legal i =>
    rw [execWord_legal hd] at h
    obtain ⟨u, hu, ha⟩ := exec_answer i s
    cases hu.symm.trans h
    obtain ⟨hnew, hreset⟩ := restarts_eq_false hw hd
    refine ⟨?_, exec_readTref h hnew, ha.tableAt_referenced c⟩
    by_cases hwrite : ∃ b, i = .write c b
    · obtain ⟨b, rfl⟩ := hwrite
      cases h
      simp [byteTo_write hd]
    · have hb : ∀ b, i ≠ .write c b := fun b e => hwrite ⟨b, e⟩
      rw [byteTo_eq_none (by simpa [hd] using hb), exec_readCrc h hnew hreset hb]
      exact (update_nil _ _).symm

/-- Words that do not start `c` again are executed to their end, and put the bytes they write to `c` into its
digest, in order. -/
theorem runFor_digests {c : Ctx} {ws : List Word} {rest : List Input} {s : State}
    (hcmd : s.port.cmd = asInputs ws ++ rest) (hws : ∀ w ∈ ws, restarts c w = false) :
    ∃ t, runFor ws.length s = .next t ∧ t.port.cmd = rest ∧ Digests c (writtenTo c ws) s t := by
  induction ws generalizing s with
  | nil => exact ⟨s, rfl, hcmd, Digests.refl c s⟩
  | cons w ws ih =>
    obtain ⟨hw, hws⟩ := List.forall_mem_cons.1 hws
    obtain ⟨u, hu, ha⟩ := execWord_answer w { s with port := { s.port with cmd := asInputs ws ++ rest } }
    obtain ⟨t, ht, hrest, hdig⟩ := ih ha.cmd hws
    have hfirst : Digests c (byteTo c w).toList s u := by
      have hport := execWord_digests hw hu
      exact ⟨hport.crc, hport.tref, hport.table⟩
    rw [writtenTo_cons]
    exact ⟨t, (runFor_next ((step_word hcmd).trans hu)).trans ht, hrest, hfirst.trans hdig⟩

/-- Settles O41: an operation writes the registers of the context it names alone, and where a digest ends depends on
its crc, its table and its bytes. -/
theorem contextsAreIndependent : Obligations.ContextsAreIndependent := by
  constructor
  · intro i s t c h hc
    have hnew : ∀ n, i ≠ .new c n := by rintro n rfl; exact hc rfl
    have hreset : i ≠ .reset c := by rintro rfl; exact hc rfl
    have hwrite : ∀ b, i ≠ .write c b := by rintro b rfl; exact hc rfl
    exact ⟨exec_readCrc h hnew hreset hwrite, exec_readTref h hnew⟩
  · intro s c c' ws rest hcmd hws hcrc htref hbytes
    obtain ⟨t, ht, -, hd⟩ := runFor_digests (c := c) hcmd fun w hw => (hws w hw).1
    obtain ⟨t', ht', -, hd'⟩ := runFor_digests (c := c') hcmd fun w hw => (hws w hw).2
    cases ht.symm.trans ht'
    refine ⟨t, ht, ?_, ?_⟩
    · rw [hd.crc, hd'.crc, hcrc, htref, hbytes]
    · rw [hd.tref, hd'.tref, htref]

/-- A step on a NEW of `c` over a table that is there: `c` holds a digest with crc 0 over that table. -/
theorem step_new_there {s : State} {n : TabNo} (hn : notBuilt s n = false) {c : Ctx} {rest : List Input}
    (hcmd : s.port.cmd = .word (encode (.new c n)) :: rest) :
    ∃ t, step s = .next t ∧ t.port.cmd = rest ∧ readCrc t c = 0x0000#16 ∧ readTref t c = n ∧
      tableAt t n = tableAt s n := by
  have hn' : notBuilt { s with port := { s.port with cmd := rest } } n = false := (notBuilt_congr rfl n).trans hn
  refine ⟨_, (step_word hcmd).trans ((execWord_legal (decode_encode _) _).trans (exec_new_there hn' c)), rfl, ?_, ?_,
    rfl⟩
  · simp
  · simp

/-- Settles O43: the NEW leaves crc 0 over the table, and the words after it put their bytes into that digest. -/
theorem digestIsUpdateOverBytesWritten : Obligations.DigestIsUpdateOverBytesWritten := by
  intro s c n ws rest hn hcmd hws
  obtain ⟨u, hu, hrest, hcrc, rfl, htable⟩ := step_new_there hn hcmd
  obtain ⟨t, ht, -, hd⟩ := runFor_digests hrest hws
  exact ⟨t, (runFor_next hu).trans ht, by rw [hd.crc, hcrc, htable], hd.tref⟩

end Sys2Proof.Machine
end

section
/-! PROOFS. O44 to O46: the pseudo-operations on a digest, WRITES and CHECKSUM (42_oneshot_and_convenience.md R171,
R172, R178). -/

namespace Sys2Proof.Machine

/-! ## The words of the lines, for operands of the block's own types (30_encoding.md R83, R84) -/

theorem assemble_of_wf {l : AsmLine} (h : l.wf = true) : Assembler.assemble l = some (Assembler.words l) :=
  if_pos h

theorem assembleAll_of_wf {ls : List AsmLine} (h : ∀ l ∈ ls, l.wf = true) :
    Assembler.assembleAll ls = some (ls.flatMap Assembler.words) := by
  induction ls with
  | nil => rfl
  | cons l ls ih =>
    obtain ⟨hl, hls⟩ := List.forall_mem_cons.1 h
    simp [Assembler.assembleAll, assemble_of_wf hl, ih hls]

@[simp] theorem ctxOk_val (c : Ctx) : AsmLine.ctxOk c.val = true := decide_eq_true c.isLt

@[simp] theorem tabOk_toNat (n : TabNo) : AsmLine.tabOk n.toNat = true := decide_eq_true n.isLt

@[simp] theorem byteOk_toNat (b : Byte) : AsmLine.byteOk b.toNat = true := decide_eq_true b.isLt

@[simp] theorem assembler_ctx_val (c : Ctx) : Assembler.ctx c.val = c := Fin.ofNat_val_eq_self c

theorem writesWords_toNat (c : Ctx) (bytes : List Byte) :
    Assembler.writesWords c.val (bytes.map BitVec.toNat) = bytes.map fun b => encode (.write c b) := by
  simp [Assembler.writesWords, Function.comp_def]

theorem assemble_writes (c : Ctx) (bytes : List Byte) :
    Assembler.assemble (.writes c.val (bytes.map BitVec.toNat)) = some (bytes.map fun b => encode (.write c b)) := by
  rw [assemble_of_wf (by simp [AsmLine.wf]), Assembler.words, writesWords_toNat]

/-- The words of `CHECKSUM d<c>, <tab>, <bytes>` (R172). -/
def oneShotWords (c : Ctx) (n : TabNo) (bytes : List Byte) : List Word :=
  encode (.new c n) :: ((bytes.map fun b => encode (.write c b)) ++ [encode (.sum16 c)])

theorem assemble_checksum (c : Ctx) (n : TabNo) (bytes : List Byte) :
    Assembler.assemble (.checksum c.val n.toNat (bytes.map BitVec.toNat)) = some (oneShotWords c n bytes) := by
  rw [assemble_of_wf (by simp [AsmLine.wf]), Assembler.words, Assembler.checksumWords, writesWords_toNat]
  simp [oneShotWords]

/-- The incremental lines of R178 stand for the words of the one line. -/
theorem assembleAll_incremental (c : Ctx) (n : TabNo) (a b : List Byte) :
    Assembler.assembleAll [.new c.val n.toNat, .writes c.val (a.map BitVec.toNat),
      .writes c.val (b.map BitVec.toNat), .sum16 c.val] = some (oneShotWords c n (a ++ b)) := by
  rw [assembleAll_of_wf (by simp [AsmLine.wf])]
  simp [Assembler.words, writesWords_toNat, oneShotWords]

/-! ## WRITES (42_oneshot_and_convenience.md R171) -/

/-- A step on the word of an operation executes the operation. -/
theorem step_encode {s : State} {i : Instr} {rest : List Input} (hcmd : s.port.cmd = .word (encode i) :: rest) :
    step s = exec i { s with port := { s.port with cmd := rest } } :=
  (step_word hcmd).trans (execWord_legal (decode_encode i) _)

theorem step_write {s : State} {c : Ctx} {b : Byte} {rest : List Input}
    (hcmd : s.port.cmd = .word (encode (.write c b)) :: rest) :
    ∃ t, step s = .next t ∧ t.port.cmd = rest ∧ t.port.rsp = s.port.rsp ++ [0x00000001#32] ∧ Digests c [b] s t := by
  refine ⟨_, (step_encode hcmd).trans (exec_write c b _), rfl, rfl, ?_, rfl, rfl⟩
  rw [readCrc_respond, readCrc_writeCrc, if_pos rfl]
  rfl

/-- The words of a WRITES put its bytes into the digest, each answered with the one byte consumed. -/
theorem runFor_writes {c : Ctx} {bytes : List Byte} {rest : List Input} {s : State}
    (hcmd : s.port.cmd = asInputs (bytes.map fun b => encode (.write c b)) ++ rest) :
    ∃ t, runFor bytes.length s = .next t ∧ t.port.cmd = rest ∧
      t.port.rsp = s.port.rsp ++ List.replicate bytes.length 0x00000001#32 ∧ Digests c bytes s t := by
  induction bytes generalizing s with
  | nil => exact ⟨s, rfl, hcmd, by simp, Digests.refl c s⟩
  | cons b bytes ih =>
    obtain ⟨u, hu, hcmd', hrsp, hfirst⟩ := step_write hcmd
    obtain ⟨t, ht, hrest, hrsp', hlater⟩ := ih hcmd'
    exact ⟨t, (runFor_next hu).trans ht, hrest, by simp [hrsp', hrsp, List.replicate_succ], hfirst.trans hlater⟩

/-- Settles O44: the words of the line step by step, and R148's account of words between them. -/
theorem writesLineUpdatesByAllItsBytes : Obligations.WritesLineUpdatesByAllItsBytes := by
  constructor
  · refine fun c bytes rest s => ⟨assemble_writes c bytes, fun hcmd => ?_⟩
    obtain ⟨t, ht, hrest, hrsp, hdig⟩ := runFor_writes hcmd
    exact ⟨t, ht, hdig.crc, hrsp, hrest⟩
  · intro c ws rest s hcmd hws
    obtain ⟨t, ht, -, hdig⟩ := runFor_digests hcmd hws
    exact ⟨t, ht, hdig.crc⟩

/-! ## CHECKSUM (42_oneshot_and_convenience.md R172) -/

/-- The words behind the NEW put the bytes into whatever digest `c` holds, and answer its crc last. -/
theorem runFor_writes_sum16 {c : Ctx} {bytes : List Byte} {rest : List Input} {s : State}
    (hcmd : s.port.cmd = asInputs ((bytes.map fun b => encode (.write c b)) ++ [encode (.sum16 c)]) ++ rest) :
    ∃ t, runFor (bytes.length + 1) s = .next t ∧ Digests c bytes s t ∧
      t.port.rsp = s.port.rsp ++ List.replicate bytes.length 0x00000001#32 ++ [0x0000#16 ++ readCrc t c] := by
  obtain ⟨u, hu, hcmd', hrsp, hdig⟩ := runFor_writes (c := c) (bytes := bytes)
    (rest := .word (encode (.sum16 c)) :: rest) (by simpa [asInputs] using hcmd)
  refine ⟨_, (runFor_add hu).trans (runFor_next ((step_encode hcmd').trans (exec_sum16 c _))),
    ⟨hdig.crc, hdig.tref, hdig.table⟩, ?_⟩
  rw [← hrsp]
  rfl

theorem oneShotWords_length (c : Ctx) (n : TabNo) (bytes : List Byte) :
    (oneShotWords c n bytes).length = bytes.length + 1 + 1 := by
  simp [oneShotWords]

theorem notBuilt_withPort (s : State) (q : Port) (n : TabNo) :
    notBuilt { s with port := q } n = notBuilt s n := notBuilt_congr rfl n

/-- What a NEW over a table that is there is answered; `step_new_there` says what it leaves. -/
theorem rsp_of_step_new_there {s t : State} {c : Ctx} {n : TabNo} {rest : List Input} (hn : notBuilt s n = false)
    (hcmd : s.port.cmd = .word (encode (.new c n)) :: rest) (h : step s = .next t) :
    t.port.rsp = s.port.rsp ++ [0x00000000#32] := by
  rw [step_encode hcmd, exec_new_there (by rwa [notBuilt_withPort])] at h
  cases h
  rfl

theorem step_new_notBuilt {s : State} {c : Ctx} {n : TabNo} {rest : List Input} (hn : notBuilt s n = true)
    (hcmd : s.port.cmd = .word (encode (.new c n)) :: rest) :
    ∃ t, step s = .next t ∧ t.port.cmd = rest ∧ t.port.rsp = s.port.rsp ++ [0x20000000#32] ∧ Digests c [] s t := by
  rw [step_encode hcmd, exec_new_notBuilt (by rwa [notBuilt_withPort])]
  exact ⟨_, rfl, rfl, rfl, (update_nil _ _).symm, rfl, rfl⟩

/-- The NEW starts a digest with crc 0, and the bytes go into it. -/
theorem runFor_oneShot_there {s : State} {c : Ctx} {n : TabNo} {bytes : List Byte} {rest : List Input}
    (hn : notBuilt s n = false) (hcmd : s.port.cmd = asInputs (oneShotWords c n bytes) ++ rest) :
    ∃ t, runFor (oneShotWords c n bytes).length s = .next t ∧
      t.port.rsp = s.port.rsp ++ 0x00000000#32 :: List.replicate bytes.length 0x00000001#32 ++
        [0x0000#16 ++ checksum bytes (tableAt s n)] ∧
      readCrc t c = checksum bytes (tableAt s n) ∧ readTref t c = n := by
  obtain ⟨u, hu, hcmd', hcrc, rfl, htable⟩ := step_new_there hn hcmd
  obtain ⟨t, ht, hdig, hrsp⟩ := runFor_writes_sum16 hcmd'
  have hsum : readCrc t c = checksum bytes (tableAt s (readTref u c)) := by rw [hdig.crc, hcrc, htable, checksum]
  rw [rsp_of_step_new_there hn hcmd hu, hsum] at hrsp
  rw [oneShotWords_length]
  exact ⟨t, (runFor_next hu).trans ht, by simp [hrsp], hsum, hdig.tref⟩

/-- The NEW is refused, and the bytes go into the digest that the context held. -/
theorem runFor_oneShot_notBuilt {s : State} {c : Ctx} {n : TabNo} {bytes : List Byte} {rest : List Input}
    (hn : notBuilt s n = true) (hcmd : s.port.cmd = asInputs (oneShotWords c n bytes) ++ rest) :
    ∃ t, runFor (oneShotWords c n bytes).length s = .next t ∧ Digests c bytes s t ∧
      t.port.rsp = s.port.rsp ++ 0x20000000#32 :: List.replicate bytes.length 0x00000001#32 ++
        [0x0000#16 ++ readCrc t c] := by
  obtain ⟨u, hu, hcmd', hrsp, hkept⟩ := step_new_notBuilt hn hcmd
  obtain ⟨t, ht, hdig, hrsp'⟩ := runFor_writes_sum16 hcmd'
  rw [oneShotWords_length]
  exact ⟨t, (runFor_next hu).trans ht, hkept.trans hdig, by simp [hrsp', hrsp]⟩

/-- Settles O45: the NEW starts a digest or is refused, and the words behind it are the same. -/
theorem checksumLineAnswersChecksum : Obligations.ChecksumLineAnswersChecksum := by
  intro s c n bytes rest ws hasm hcmd
  cases (assemble_checksum c n bytes).symm.trans hasm
  refine ⟨rfl, fun hn => ?_, fun hn => ?_⟩
  · obtain ⟨t, ht, hrsp, hcrc, htref⟩ := runFor_oneShot_there hn hcmd
    exact ⟨t, _, ht, hrsp, rfl, hcrc, htref⟩
  · obtain ⟨t, ht, hdig, hrsp⟩ := runFor_oneShot_notBuilt hn hcmd
    rw [hdig.crc] at hrsp
    exact ⟨t, _, ht, hrsp, rfl, hdig.tref⟩

/-! ## One-shot and incremental agree (42_oneshot_and_convenience.md R178) -/

/-- The last answer to the words of a CHECKSUM depends on its table and its bytes alone, whatever the context held. -/
theorem getLast?_rsp_oneShot {s : State} {n : TabNo} (hn : notBuilt s n = false) (c : Ctx) (bytes : List Byte) :
    ∃ t, runFor (oneShotWords c n bytes).length
        { s with port := { s.port with cmd := asInputs (oneShotWords c n bytes) } } = .next t ∧
      t.port.rsp.getLast? = some (responseWord .ok (checksum bytes (tableAt s n))) := by
  obtain ⟨t, ht, hrsp, -⟩ := runFor_oneShot_there
    (s := { s with port := { s.port with cmd := asInputs (oneShotWords c n bytes) } }) (c := c) (rest := [])
    (by rwa [notBuilt_withPort]) (List.append_nil _).symm
  exact ⟨t, ht, by rw [hrsp, List.getLast?_concat]; rfl⟩

/-- Settles O46: both texts stand for a CHECKSUM of `a ++ b`. -/
theorem oneShotAgreesWithIncremental : Obligations.OneShotAgreesWithIncremental := by
  intro s c c' n a b ws ws' hn hone hinc
  rw [assemble_checksum] at hone
  rw [assembleAll_incremental] at hinc
  cases hone
  cases hinc
  obtain ⟨t, ht, hlast⟩ := getLast?_rsp_oneShot hn c (a ++ b)
  obtain ⟨t', ht', hlast'⟩ := getLast?_rsp_oneShot hn c' (a ++ b)
  exact ⟨t, t', _, ht, ht', hlast, hlast', statusField_responseWord .ok _⟩

end Sys2Proof.Machine
end

section
/-! PROOFS. O27 and O29: the status that each word is answered with, and that a refusal leaves no trace
(60_exceptions.md R190, R191, R195). -/

namespace Sys2Proof.Machine

/-! ## The table of causes (60_exceptions.md R190) -/

/-- The status of an operation: the causes of R190, MKTAB's named polynomials before the in-use check (R191). -/
def operationStatus (s : State) : Instr → Status
  | .build k _ => if inUse s k then .inuse else .ok
  | .mktab k p => if p = 0x8005#16 ∨ p = 0x1021#16 then .ok else if inUse s k then .inuse else .ok
  | .tread n _ | .new _ n => if notBuilt s n then .notable else .ok
  | .reset _ | .write _ _ | .sum16 _ | .sum _ | .blksz _ | .size _ => .ok

/-- The status of a decoded word: to be an operation is the first check (R191). -/
def verdictStatus (s : State) : Verdict → Status
  | .illegal => .illegal
  | .legal i => operationStatus s i

theorem operationStatus_ne_illegal (s : State) (i : Instr) : operationStatus s i ≠ .illegal := by
  cases i with
  | build | mktab | tread | new => rw [operationStatus]; split_ifs <;> simp
  | reset | write | sum16 | sum | blksz | size => simp [operationStatus]

/-- NOTABLE is an answer to TREAD and NEW alone. -/
theorem operationStatus_eq_notable_iff (s : State) (i : Instr) : operationStatus s i = .notable ↔
    ∃ n, notBuilt s n = true ∧ ((∃ j, i = .tread n j) ∨ ∃ c, i = .new c n) := by
  cases i with
  | tread | new => simp [operationStatus]
  | build | mktab => rw [operationStatus]; split_ifs <;> simp
  | reset | write | sum16 | sum | blksz | size => simp [operationStatus]

/-- INUSE is an answer to BUILD and MKTAB alone. -/
theorem operationStatus_eq_inuse_iff (s : State) (i : Instr) : operationStatus s i = .inuse ↔
    ∃ k p, inUse s k = true ∧ (i = .build k p ∨ (i = .mktab k p ∧ p ≠ 0x8005#16 ∧ p ≠ 0x1021#16)) := by
  cases i with
  | build => simp [operationStatus]
  | mktab k p =>
    rw [operationStatus]
    split_ifs with hnamed hheld
    · obtain rfl | rfl := hnamed <;> simp
    · obtain ⟨ha, hc⟩ := not_or.1 hnamed
      exact iff_of_true rfl ⟨k, p, hheld, .inr ⟨rfl, ha, hc⟩⟩
    · refine iff_of_false (by simp) ?_
      rintro ⟨_, _, hu, h | ⟨h, -⟩⟩
      · cases h
      · cases h
        exact hheld hu
  | tread | new => rw [operationStatus]; split_ifs <;> simp
  | reset | write | sum16 | sum | blksz | size => simp [operationStatus]

theorem verdictStatus_eq_illegal_iff (s : State) (d : Verdict) : verdictStatus s d = .illegal ↔ d = .illegal := by
  cases d with
  | illegal => simp [verdictStatus]
  | legal i => simp [verdictStatus, operationStatus_ne_illegal]

theorem verdictStatus_eq_notable_iff (s : State) (d : Verdict) : verdictStatus s d = .notable ↔
    ∃ k : Slot, readUv s k = false ∧
      ((∃ j, d = .legal (.tread (slotTab k) j)) ∨ ∃ c, d = .legal (.new c (slotTab k))) := by
  cases d with
  | illegal => simp [verdictStatus]
  | legal i =>
    simp only [verdictStatus, operationStatus_eq_notable_iff, notBuilt_iff, Verdict.legal.injEq]
    constructor
    · rintro ⟨_, ⟨k, rfl, hk⟩, h⟩
      exact ⟨k, hk, h⟩
    · rintro ⟨k, hk, h⟩
      exact ⟨_, ⟨k, rfl, hk⟩, h⟩

theorem verdictStatus_eq_inuse_iff (s : State) (d : Verdict) : verdictStatus s d = .inuse ↔
    ∃ (k : Slot) (p : U16), (∃ c : Ctx, readTref s c = slotTab k) ∧
      (d = .legal (.build k p) ∨ (d = .legal (.mktab k p) ∧ p ≠ 0x8005#16 ∧ p ≠ 0x1021#16)) := by
  cases d with
  | illegal => simp [verdictStatus]
  | legal i => simp only [verdictStatus, operationStatus_eq_inuse_iff, inUse_iff, Verdict.legal.injEq]

/-! ## Every word is answered with its status -/

/-- From `s` to `t` one word was answered with status `st`, and with any but OK it was refused. -/
def AnsweredWith (st : Status) (s t : State) : Prop :=
  ∃ v bs, Answered s t (responseWord st v) bs ∧ (st ≠ .ok → t = refuse st s ∧ v = 0x0000#16 ∧ bs = [])

theorem answeredWith_ok {s u : State} (v : U16) (bs : List Byte) (hp : u.port = s.port) (hr : u.resets = s.resets) :
    AnsweredWith .ok s (respond .ok v bs u) :=
  ⟨v, bs, answered_respond .ok v bs hp hr, fun h => absurd rfl h⟩

theorem answeredWith_refuse (st : Status) (s : State) : AnsweredWith st s (refuse st s) :=
  ⟨0x0000#16, [], (refuse_spec st s).2, fun _ => ⟨rfl, rfl, rfl⟩⟩

theorem answeredWith_buildInto (k : Slot) (p : U16) (s : State) :
    AnsweredWith (if inUse s k then .inuse else .ok) s (buildInto k p s) := by
  cases h : inUse s k with
  | true => rw [buildInto_inuse p h]; exact answeredWith_refuse .inuse s
  | false => rw [buildInto_free p h]; exact answeredWith_ok _ _ rfl rfl

theorem exec_answeredWith (i : Instr) (s : State) :
    ∃ t, exec i s = .next t ∧ AnsweredWith (operationStatus s i) s t := by
  cases i with
  | build k p => exact ⟨_, exec_build k p s, answeredWith_buildInto k p s⟩
  | mktab k p =>
    by_cases hp : p = 0x8005#16 ∨ p = 0x1021#16
    · rw [operationStatus, if_pos hp]
      obtain rfl | rfl := hp
      · exact ⟨_, exec_mktab_ansi k s, answeredWith_ok _ _ rfl rfl⟩
      · exact ⟨_, exec_mktab_ccitt k s, answeredWith_ok _ _ rfl rfl⟩
    · rw [operationStatus, if_neg hp]
      obtain ⟨ha, hc⟩ := not_or.1 hp
      exact ⟨_, exec_mktab_unnamed ha hc k s, answeredWith_buildInto k p s⟩
  | tread n j =>
    cases hn : notBuilt s n with
    | true => rw [operationStatus, hn]; exact ⟨_, exec_tread_notBuilt hn j, answeredWith_refuse .notable s⟩
    | false => rw [operationStatus, hn]; exact ⟨_, exec_tread_there hn j, answeredWith_ok _ _ rfl rfl⟩
  | new c n =>
    cases hn : notBuilt s n with
    | true => rw [operationStatus, hn]; exact ⟨_, exec_new_notBuilt hn c, answeredWith_refuse .notable s⟩
    | false => rw [operationStatus, hn]; exact ⟨_, exec_new_there hn c, answeredWith_ok _ _ rfl rfl⟩
  | reset | write | sum16 | sum | blksz | size => exact ⟨_, rfl, answeredWith_ok _ _ rfl rfl⟩

theorem execWord_answeredWith (w : Word) (s : State) :
    ∃ t, execWord w s = .next t ∧ AnsweredWith (verdictStatus s (decode w)) s t := by
  cases hd : decode w with
  | legal i => rw [execWord_legal hd]; exact exec_answeredWith i s
  | illegal => exact ⟨_, execWord_illegal hd s, answeredWith_refuse .illegal s⟩

/-! ## The response tells the status and `VAL` (30_encoding.md R76) -/

theorem eq_ok_of_responseWord_eq {st : Status} {v v' : U16} (h : responseWord st v = responseWord .ok v') :
    st = .ok ∧ v = v' := by
  have hst := congrArg statusField h
  have hv := congrArg valField h
  rw [statusField_responseWord, statusField_responseWord] at hst
  rw [valField_responseWord, valField_responseWord] at hv
  exact ⟨(Status.code_eq_zero_iff st).1 hst, hv⟩

theorem Answered.response_unique {s t : State} {r r' : Word} {bs : List Byte} (h : Answered s t r bs)
    (h' : t.port.rsp = s.port.rsp ++ [r']) : r = r' := by
  simpa using h.rsp.symm.trans h'

/-- A word whose operation only answers OK with `v'` is answered so. -/
theorem answer_of_exec_ok {w : Word} {i : Instr} {s t : State} {st : Status} {v v' : U16} {bs : List Byte}
    (ht : execWord w s = .next t) (ha : Answered s t (responseWord st v) bs)
    (hexec : exec i s = .next (respond .ok v' [] s)) (hd : decode w = .legal i) : st = .ok ∧ v = v' := by
  cases ht.symm.trans ((execWord_legal hd s).trans hexec)
  exact eq_ok_of_responseWord_eq (ha.response_unique (respond_rsp .ok v' [] s))

/-- Settles O27: the status is the one the table of causes gives, and with any but OK the word was refused. -/
theorem statusIsByTheTableOfCauses : Obligations.StatusIsByTheTableOfCauses := by
  intro w s
  obtain ⟨t, ht, v, bs, ha, hrefused⟩ := execWord_answeredWith w s
  refine ⟨t, verdictStatus s (decode w), v, bs, ht, ha, fun hst => ?_, verdictStatus_eq_illegal_iff s _,
    verdictStatus_eq_notable_iff s _, verdictStatus_eq_inuse_iff s _,
    fun k => answer_of_exec_ok ht ha (exec_mktab_ansi k s), fun k => answer_of_exec_ok ht ha (exec_mktab_ccitt k s)⟩
  obtain ⟨rfl, hv, hbs⟩ := hrefused hst
  exact ⟨rfl, hv, hbs⟩

/-! ## A refusal leaves no trace (60_exceptions.md R195) -/

/-- A word whose response has a status other than OK was refused: only the channels differ. -/
theorem eq_refuse_of_status {w r : Word} {s t : State} (h : execWord w s = .next t)
    (hrsp : t.port.rsp = s.port.rsp ++ [r]) (hst : statusField r ≠ 0#4) : ∃ st, t = refuse st s := by
  obtain ⟨u, hu, v, bs, ha, hrefused⟩ := execWord_answeredWith w s
  cases hu.symm.trans h
  obtain rfl := ha.response_unique hrsp
  rw [statusField_responseWord, ne_eq, Status.code_eq_zero_iff] at hst
  exact ⟨_, (hrefused hst).1⟩

/-- Settles O29: a refusal differs from the state before it in the channels alone, which have no influence on what
the next word does and answers. -/
theorem refusalLeavesNoTrace : Obligations.RefusalLeavesNoTrace := by
  intro s t w w' r h hrsp hst
  obtain ⟨st, rfl⟩ := eq_refuse_of_status h hrsp hst
  obtain ⟨b, st', v, bs, hnext⟩ := execWord_anyPort w' s
  exact ⟨_, _, _, bs, hnext (refuse st s).port, hnext s.port, rfl, answered_respond st' v bs rfl rfl,
    answered_respond st' v bs rfl rfl⟩

end Sys2Proof.Machine
end

section
/-! PROOFS. O32: a run of command words answers every one of them (70_reset_and_hazards.md R223). -/

namespace Sys2Proof.Machine

/-- Settles O32: as many steps as there are words take just these words and append one response to each, whatever
the channels carried before. -/
theorem everyWordIsAnswered : Obligations.EveryWordIsAnswered := by
  intro ws rest s hcmd
  obtain ⟨b, rs, bytes, hlen, hrun⟩ := runFor_words_anyPort ws s
  exact ⟨_, rs, hrun s.port rest hcmd, rfl, rfl, hlen⟩

end Sys2Proof.Machine
end

section
/-! PROOFS. O35, O37, O38: the state after reset (10_state.md R31) and the invariant. -/

namespace Sys2Proof.Machine

/-- Settles O38: a reset of the block gives the reset state, and a command word changes the block in one of four
ways, each of which keeps the invariant. -/
theorem stepKeepsInvariant : Obligations.StepKeepsInvariant := fun _ _ => inv_step

/-- Settles O37: nothing is listed at reset, so every address holds its reset contents, and every table reference is
0. -/
theorem resetMeetsInvariant : Obligations.ResetMeetsInvariant := inv_reset

/-- Settles O35: the table space at reset is the reset contents, as the invariant says of tables 0 and 1 and of slots
that are not built. -/
theorem resetStateIsAsTabled : Obligations.ResetStateIsAsTabled :=
  ⟨fun c => ⟨readCrc_reset c, readTref_reset c⟩, readUv_reset, inv_reset.ansi, inv_reset.ccitt,
    fun i => ⟨inv_reset.unbuilt 0 (readUv_reset 0) i, inv_reset.unbuilt 1 (readUv_reset 1) i⟩⟩

end Sys2Proof.Machine
end

section
/-! PROOFS. O30, O31, O33, O36 and O40: what one step does. -/

namespace Sys2Proof.Machine

/-- Settles O30: a step on a word executes it, and a word that decodes is its operation. -/
theorem stepRunsTheDecodedOperation : Obligations.StepRunsTheDecodedOperation :=
  fun _ _ _ _ hcmd hd => (step_word hcmd).trans (execWord_legal hd _)

/-- Settles O31: a reset of the block always has its next state, and so has every word. -/
theorem stepStopsOnlyWithNothingPresented : Obligations.StepStopsOnlyWithNothingPresented := by
  refine fun s => ⟨step_nil, fun hne => ?_⟩
  obtain ⟨e, rest, hcmd⟩ := List.exists_cons_of_ne_nil hne
  cases e with
  | blockReset => exact ⟨_, step_blockReset hcmd⟩
  | word w =>
    obtain ⟨t, ht, -⟩ := execWord_answer w { s with port := { s.port with cmd := rest } }
    exact ⟨t, (step_word hcmd).trans ht⟩

/-- Settles O33: a reset of the block writes the same block whatever is on the channels, and a word does and answers
the same. -/
theorem stepDependsOnBlockAndFirstInput : Obligations.StepDependsOnBlockAndFirstInput := by
  rintro s ⟨b, q, n⟩ t e rest rest' hcmd hcmd' rfl rfl h
  cases e with
  | blockReset =>
    cases (step_blockReset hcmd).symm.trans h
    exact ⟨_, [], [], step_blockReset hcmd', rfl, rfl, by simp, by simp⟩
  | word w =>
    obtain ⟨b, st, v, bs, hw⟩ := execWord_anyPort w s
    cases ((step_word hcmd).trans (hw _)).symm.trans h
    exact ⟨_, _, _, (step_word hcmd').trans (hw _), rfl, rfl, rfl, rfl⟩

/-- Settles O36: the step on a reset takes it and writes the block of R31, and the channels
are no part of it. -/
theorem blockResetRestoresEveryValue : Obligations.BlockResetRestoresEveryValue :=
  fun _ _ hcmd => ⟨_, step_blockReset hcmd, rfl, rfl, rfl, rfl⟩

/-- Executing an operation clears no `UV` bit (10_state.md R28): only a build writes one, and it sets it. -/
theorem Answer.readUv_mono {s t : State} (h : Answer s t) {k : Slot} (hk : readUv s k = true) :
    readUv t k = true := by
  cases h.change with
  | same hb | crc _ _ hb | fresh _ _ _ hb => rw [readUv, hb]; exact hk
  | build l p _ hb =>
    have hset : readUv (setUv (writeTable s (slotTab l) (buildTable p)) l) k = true := by simp [hk]
    rw [readUv, hb]
    exact hset

/-- Settles O40: of what a step takes, a command word clears no `UV` bit. -/
theorem onlyBlockResetClearsUv : Obligations.OnlyBlockResetClearsUv := by
  intro s t k h hs ht
  obtain ⟨rest, hcmd, -⟩ | ⟨w, rest, -, -, ha⟩ := step_cases h
  · exact ⟨rest, hcmd⟩
  · have hk : readUv t k = true := ha.readUv_mono hs
    simp [hk] at ht

end Sys2Proof.Machine
end

section
/-! PROOFS. O42: the free value cannot be observed (93_implementation_defined.md U1). -/

namespace Sys2Proof.Machine

/-! ## The count of resets is only the free value's argument (log 4) -/

theorem buildInto_setResets (k : Slot) (p : U16) (s : State) (r : Nat) :
    buildInto k p { s with resets := r } = { buildInto k p s with resets := r } := by
  cases h : inUse s k with
  | true => rw [buildInto_inuse p h, buildInto_inuse (s := { s with resets := r }) p h]; rfl
  | false => rw [buildInto_free p h, buildInto_free (s := { s with resets := r }) p h]; rfl

/-- An entry of a table that is there has a value of its own, so a read does not come to the free value. -/
theorem tabRead_setResets {s : State} (hs : Inv s) {n : TabNo} (hn : notBuilt s n = false) (r : Nat) (i : Byte) :
    tabRead { s with resets := r } n i = tabRead s n i := by
  obtain ⟨-, p, hp⟩ := holdsTable_of_built hs hn
  rw [tabRead_of_read (hp i), tabRead_of_read (s := { s with resets := r }) (hp i)]

theorem exec_setResets {i : Instr} {s t : State} (hs : Inv s) (h : exec i s = .next t) (r : Nat) :
    exec i { s with resets := r } = .next { t with resets := r } := by
  cases i with
  | build k p => cases h; exact congrArg _ (buildInto_setResets k p s r)
  | mktab k p =>
    by_cases ha : p = 0x8005#16
    · subst ha; cases h; rfl
    · by_cases hc : p = 0x1021#16
      · subst hc; cases h; rfl
      · cases (exec_mktab_unnamed ha hc k s).symm.trans h
        rw [exec_mktab_unnamed ha hc, buildInto_setResets]
  | tread n i =>
    cases hn : notBuilt s n with
    | true =>
      cases (exec_tread_notBuilt hn i).symm.trans h
      exact exec_tread_notBuilt (s := { s with resets := r }) hn i
    | false =>
      cases (exec_tread_there hn i).symm.trans h
      rw [exec_tread_there (s := { s with resets := r }) hn i, tabRead_setResets hs hn]
      rfl
  | new c n =>
    cases hn : notBuilt s n with
    | true => cases (exec_new_notBuilt hn c).symm.trans h; exact exec_new_notBuilt (s := { s with resets := r }) hn c
    | false => cases (exec_new_there hn c).symm.trans h; exact exec_new_there (s := { s with resets := r }) hn c
  | write c b =>
    cases h
    have ht : tableAt { s with resets := r } (readTref s c) = tableAt s (readTref s c) :=
      funext (tabRead_setResets hs (hs.refs c) r)
    rw [← ht]
    rfl
  | reset | sum16 | sum | blksz | size => cases h; rfl

theorem execWord_setResets {w : Word} {s t : State} (hs : Inv s) (h : execWord w s = .next t) (r : Nat) :
    execWord w { s with resets := r } = .next { t with resets := r } := by
  cases hd : decode w with
  | legal i =>
    rw [execWord_legal hd] at h ⊢
    exact exec_setResets hs h r
  | illegal => cases (execWord_illegal hd s).symm.trans h; exact execWord_illegal hd _

theorem step_setResets {s t : State} (hs : Inv s) (h : step s = .next t) (r : Nat) :
    ∃ r', step { s with resets := r } = .next { t with resets := r' } := by
  obtain ⟨rest, hcmd, rfl⟩ | ⟨w, rest, hcmd, hw, -⟩ := step_cases h
  · exact ⟨r + 1, step_blockReset hcmd⟩
  · have hs' : Inv { s with port := { s.port with cmd := rest } } := inv_of_block_eq (s := s) rfl hs
    exact ⟨r, (step_word (s := { s with resets := r }) hcmd).trans (execWord_setResets hs' hw r)⟩

theorem runFor_setResets {n : Nat} {s t : State} (hs : Inv s) (h : runFor n s = .next t) (r : Nat) :
    ∃ r', runFor n { s with resets := r } = .next { t with resets := r' } := by
  induction n generalizing s r with
  | zero => cases h; exact ⟨r, rfl⟩
  | succ n ih =>
    obtain ⟨u, hu, ht⟩ := runFor_succ_inv h
    obtain ⟨r', hr'⟩ := step_setResets hs hu r
    obtain ⟨r'', hr''⟩ := ih (inv_step hs hu) ht r'
    exact ⟨r'', (runFor_next hr').trans hr''⟩

/-- Settles O42: the invariant lets an operation read only tables that are there, so two runs that differ in the
count of resets differ in nothing else. -/
theorem unbuiltEntriesAreUnobservable : Obligations.UnbuiltEntriesAreUnobservable := by
  intro n r s t hs h
  obtain ⟨r', hr'⟩ := runFor_setResets hs h r
  exact ⟨_, hr', rfl, rfl⟩

end Sys2Proof.Machine
end

section
/-! PROOFS. O11, O12 and O14: the words of the ten operations (30_encoding.md R74). -/

namespace Sys2Proof.Machine

/-- Settles O11: each of these words is the operation's encoding, and no two rows have the same `OP`. -/
theorem opcodeMapWordsDecode : Obligations.OpcodeMapWordsDecode := by
  refine ⟨fun k p => ?build, fun k p => ?mktab, fun n i => ?tread, fun c n => ?new, fun c => ?reset, fun c b => ?write,
    fun c => ?sum16, fun c => ?sum, fun c => ?blksz, fun c => ?size, fun _ _ _ hr hq => row_unique hr hq⟩
  case build => rw [rowWord_build, decode_encode]
  case mktab => rw [rowWord_mktab, decode_encode]
  case tread => rw [rowWord_tread, decode_encode]
  case new => rw [rowWord_new, decode_encode]
  case reset => rw [rowWord_reset, decode_encode]
  case write => rw [rowWord_write, decode_encode]
  case sum16 => rw [rowWord_sum16, decode_encode]
  case sum => rw [rowWord_sum, decode_encode]
  case blksz => rw [rowWord_blksz, decode_encode]
  case size => rw [rowWord_size, decode_encode]

/-- Settles O14: the eleven words are the encodings of their operations, and the last matches no row. -/
theorem listedWordsDecode : Obligations.ListedWordsDecode :=
  ⟨decode_encode (.build 0 0x0000#16), decode_encode (.build 1 0xFFFF#16), decode_encode (.mktab 0 0x8005#16),
    decode_encode (.tread 3#2 0xFF#8), decode_encode (.new 3 3#2), decode_encode (.reset 3),
    decode_encode (.write 3 0xFF#8), decode_encode (.sum16 3), decode_encode (.sum 3), decode_encode (.blksz 3),
    decode_encode (.size 3), decode_of_no_match (by decide)⟩

end Sys2Proof.Machine

namespace Sys2Proof

/-! ## The number of the legal words -/

theorem encode_injective : Function.Injective encode := fun i j h => by
  have hd : Verdict.legal i = .legal j := by rw [← decode_encode i, h, decode_encode]
  cases hd
  rfl

theorem decode_ne_illegal_iff (w : Word) : decode w ≠ .illegal ↔ ∃ i, encode i = w := by
  constructor
  · intro h
    cases hd : decode w with
    | legal i => exact ⟨i, encode_of_decode hd⟩
    | illegal => exact absurd hd h
  · rintro ⟨i, rfl⟩
    simp [decode_encode]

/-- The operations as a sum of their operands, one summand for each constructor. -/
def operandsEquiv := proxy_equiv% Instr

/-- The count of R74, row by row: every operand takes every value of its type. -/
theorem card_instr : Nat.card Instr = 264228 := by
  have fintype (n : Nat) : Fintype (BitVec n) := Fintype.ofEquiv _ BitVec.equivFin.symm.toEquiv
  have card (n : Nat) : Fintype.card (BitVec n) = 2 ^ n := by
    rw [Fintype.card_congr BitVec.equivFin.toEquiv, Fintype.card_fin]
  rw [← Nat.card_congr operandsEquiv]
  simp [card]

/-- Settles O12: the legal words are the encodings, one for each operation. -/
theorem legalWordsAre264228 : Obligations.LegalWordsAre264228 := by
  have : Finite Word := .of_equiv _ BitVec.equivFin.symm.toEquiv
  have hfin : (Set.range encode).Finite := Set.toFinite _
  refine ⟨hfin.toFinset.toList, Finset.nodup_toList _, ?length, fun w => ?mem⟩
  case length =>
    rw [Finset.length_toList, ← Set.ncard_eq_toFinset_card, Set.ncard_range_of_injective encode_injective, card_instr]
  case mem => simp [decode_ne_illegal_iff]

end Sys2Proof
end

section
/-! PROOFS. O15: the words that a line of assembly stands for (30_encoding.md R83). -/

namespace Sys2Proof.Machine

theorem exists_encode_of_mem_writesWords {c : Nat} {bytes : List Nat} {w : Word}
    (h : w ∈ Assembler.writesWords c bytes) : ∃ i, encode i = w := by
  obtain ⟨b, -, rfl⟩ := List.mem_map.1 h
  exact ⟨_, rfl⟩

theorem exists_encode_of_mem_checksumWords {c t : Nat} {bytes : List Nat} {w : Word}
    (h : w ∈ Assembler.checksumWords c t bytes) : ∃ i, encode i = w := by
  rw [Assembler.checksumWords, List.mem_cons, List.mem_append, List.mem_singleton] at h
  obtain rfl | h | rfl := h
  · exact ⟨_, rfl⟩
  · exact exists_encode_of_mem_writesWords h
  · exact ⟨_, rfl⟩

/-- Every line but `.word` stands for words of operations. -/
theorem exists_encode_of_mem_words {l : AsmLine} (hl : ∀ n, l ≠ .word n) {w : Word} (h : w ∈ Assembler.words l) :
    ∃ i, encode i = w := by
  cases l with
  | word n => exact absurd rfl (hl n)
  | writes => exact exists_encode_of_mem_writesWords h
  | checksum | checksumAnsi | checksumCcitt => exact exists_encode_of_mem_checksumWords h
  | build | mktab | tread | new | reset | write | sum16 | sum | blksz | size | newAnsi | newCcitt | makeTable =>
    exact ⟨_, (List.mem_singleton.1 h).symm⟩

theorem assemble_eq_none_iff (l : AsmLine) : Assembler.assemble l = none ↔ l.wf = false := by
  simp [Assembler.assemble]

theorem words_of_assemble {l : AsmLine} {ws : List Word} (h : Assembler.assemble l = some ws) :
    ws = Assembler.words l := by
  cases hwf : l.wf with
  | true => exact (Option.some.inj ((assemble_of_wf hwf).symm.trans h)).symm
  | false => cases ((assemble_eq_none_iff l).2 hwf).symm.trans h

/-- Settles O15: the words of a line are encodings of operations, and a line assembles when its operands are in their
ranges. -/
theorem assemblerMakesOnlyLegalWords : Obligations.AssemblerMakesOnlyLegalWords := by
  refine ⟨fun l ws h hl w hw => ?_, assemble_eq_none_iff⟩
  obtain rfl := words_of_assemble h
  exact (decode_ne_illegal_iff w).2 (exists_encode_of_mem_words hl hw)

end Sys2Proof.Machine
end

section
/-! PROOFS. O8 and O16: the known answers (90_conflicts.md C1) and the map of entry addresses (20_memory.md R50). -/

namespace Sys2Proof.Machine

/-- The checksum of the one byte 0xFF comes of entry 0 of the table alone. -/
theorem checksum_ones (p : U16) : checksum [0xFF#8] (buildTable p) = 0xFF00#16 := by
  rw [checksum, update_singleton_eq_xor]
  simp [buildTable]

/-- Settles O8: four of the answers are for given bytes over a given table, and are computed; the one for every
polynomial is `checksum_ones`. -/
theorem knownAnswersFollowTheAlgorithm : Obligations.KnownAnswersFollowTheAlgorithm := by
  refine ⟨?ansi, ?ccitt, checksum_ones, ?agreeAnsi, ?agreeCcitt⟩
  all_goals decide +kernel

/-- Settles O16: an entry address is its table number and its byte value, one after the other. -/
theorem entryAddressesAreTheMap : Obligations.EntryAddressesAreTheMap :=
  ⟨entryAddr_toNat, entryAddr_parts, fun n i => ⟨addrTab_entryAddr n i, addrIndex_entryAddr n i⟩, slotTab_toNat⟩

end Sys2Proof.Machine
end
